-- ==== Sys2Proof/Word.lean ====
section
/-! DEFINITION. The byte and the 32-bit word of the block's registers (00_scope.md R8, 10_state.md R17). -/

namespace Sys2Proof

/-- A byte, an integer in 0..255 (R8). -/
abbrev Byte := BitVec 8

/-- The contents of a 32-bit register (R17); bit 0 is the least significant (R8). -/
abbrev Word := BitVec 32

end Sys2Proof
end

