-- ==== Sys2Proof/Syntax.lean ====
section
/-! DEFINITION. The seven operations of the block, one constructor per row of spec/opcode_table.json (R50, R63). -/

namespace Sys2Proof

/-- The operations of CFCODEC. A command carries no immediate and no register field (R49, R59), so no
constructor has an argument: the operand of each is the IN buffer with length IN_LEN. -/
inductive Instr where
  /-- OP 0x1: the XOR checksum of the operand (R65). -/
  | bcc
  /-- OP 0x2: pack the operand as a request frame (R66). -/
  | build
  /-- OP 0x3: check a response's frame boundaries and strip them (R69). -/
  | validate
  /-- OP 0x4: take the data section out of a frame body (R73). -/
  | extract
  /-- OP 0x5: parse a data section and recover its signed value (R77). -/
  | decode
  /-- OP 0x6: VALIDATE, EXTRACT and DECODE in one step (R80). -/
  | pipe
  /-- OP 0x7: check the BCC byte after a frame's first ETX (R71). -/
  | bccchk
  deriving DecidableEq, Repr

end Sys2Proof
end

