-- ==== Sys2Proof/Decode.lean ====
section
/-! DEFINITION. The command word (30_encoding.md section 1): format CMD (R49), the operation map (R50), the illegal
OP values (R51), the opcode table (R62, R63), and the encoder. A command is one 32-bit transaction, so no byte
order arises (R41, log 13). -/

namespace Sys2Proof

/-- Why a command word names no operation. -/
inductive DecodeError where
  /-- OP is 0x0 or 0x8 to 0xF (R51); the command completes with `raise IllegalOp`. -/
  | illegalOp (op : BitVec 4)
  deriving DecidableEq, Repr

/-- The field OP, bits 3:0 of a command word; bits 31:4 are ignored (R49). -/
def opField (w : Word) : BitVec 4 := w.setWidth 4

/-- The OP value of an operation (R50). -/
def Instr.op : Instr → BitVec 4
  | .bcc => 0x1#4
  | .build => 0x2#4
  | .validate => 0x3#4
  | .extract => 0x4#4
  | .decode => 0x5#4
  | .pipe => 0x6#4
  | .bccchk => 0x7#4

/-- The operation an OP value selects (R50), or the illegal class (R51). -/
def decodeOp (op : BitVec 4) : Except DecodeError Instr :=
  match op.toNat with
  | 1 => .ok .bcc
  | 2 => .ok .build
  | 3 => .ok .validate
  | 4 => .ok .extract
  | 5 => .ok .decode
  | 6 => .ok .pipe
  | 7 => .ok .bccchk
  | _ => .error (.illegalOp op)

/-- Decoding, total on 32-bit command words (R51). -/
def decode (w : Word) : Except DecodeError Instr := decodeOp (opField w)

/-- The command word of an operation, reserved bits 0 as software should write them (R49, R61). -/
def encode (i : Instr) : Word := i.op.setWidth 32

/-- A row of the opcode table: the words w with `w &&& mask = pattern` are the operation's (R62). -/
structure OpRow where
  instr : Instr
  pattern : Word
  mask : Word
  deriving DecidableEq, Repr

/-- opcode_table.json, row by row (R63). -/
def opTable : List OpRow :=
  [ ⟨.bcc, 0x00000001#32, 0x0000000F#32⟩,
    ⟨.build, 0x00000002#32, 0x0000000F#32⟩,
    ⟨.validate, 0x00000003#32, 0x0000000F#32⟩,
    ⟨.extract, 0x00000004#32, 0x0000000F#32⟩,
    ⟨.decode, 0x00000005#32, 0x0000000F#32⟩,
    ⟨.pipe, 0x00000006#32, 0x0000000F#32⟩,
    ⟨.bccchk, 0x00000007#32, 0x0000000F#32⟩ ]

/-- A row claims a command word. -/
def OpRow.selects (r : OpRow) (w : Word) : Bool := w &&& r.mask == r.pattern

/-- What the decoder reads from a command word whose low `nbits` bits are w and whose other bits are 0,
numbered as spec/opcode_table.json numbers them. -/
def decodeTableWord (nbits w : Nat) : Option Instr :=
  match decode (BitVec.ofNat 32 (w % 2 ^ nbits)) with
  | .ok i => some i
  | .error _ => none

end Sys2Proof
end

