-- ==== Sys2Proof/Config.lean ====
section
/-! DEFINITION. The hardwired constants of R6, the parameters of R7 that the spec leaves OPEN, and the free
values that stand for what the spec calls unspecified (93_implementation_defined.md I2, I3, I4). An `opaque`
constant has no body: a theorem about the model holds whatever it is. -/

namespace Sys2Proof.Config

/-! ## Fixed constants (R6) -/

/-- Start-of-text delimiter. -/
def stx : Byte := 0x02#8

/-- End-of-text delimiter. -/
def etx : Byte := 0x03#8

/-- Width of the two's-complement interpretation of a reading. -/
def bitWidth : Nat := 16

/-- Decimal scaling divisor of a reading. -/
def scale : Nat := 10

/-- Offset of the data section in the frame body. -/
def hdrOffset : Nat := 13

/-- Minimum length of a frame body (of the body, not of the frame: 90_conflicts.md C7). -/
def minBody : Nat := 16

/-! ## Parameters (R7) -/

/-- What fixes N_IN; uninterpreted. -/
opaque nInAbove : Nat

/-- N_IN, the capacity of IN in bytes: OPEN (D5), at least 21, and small enough that N_OUT fits the 32-bit
OUT_LEN (W_LEN). DEDUCED, log 1: every value from 21 to 2^32 - 4 is possible. -/
@[irreducible] def nIn : Nat := 21 + nInAbove % (2 ^ 32 - 24)

/-- N_OUT, the capacity of OUT in bytes (D5). -/
def nOut : Nat := nIn + 3

/-- W_U, the width of RES_U (D17). -/
def wU : Nat := 4 * nIn

/-- W_S, the width of RES_S (D17). -/
def wS : Nat := 4 * nIn + 1

/-- CMD_TEXT, the command text the host packs into a request: OPEN (D31), 21 characters (C1). Log 20. -/
opaque cmdText : Vector Byte 21

/-! ## Free values: reads while BUSY = 1 (R35, R106, I2), drawn at the counter `draws` of State. Log 5. -/

/-- STATUS.ERR as read while busy. -/
opaque freeErr : Nat → BitVec 4

/-- OUT_LEN as read while busy. -/
opaque freeOutLen : Nat → Word

/-- RES_BCC as read while busy; all 32 bits of the register are free (log 14). -/
opaque freeResBcc : Nat → Word

/-- RES_U as read while busy. -/
opaque freeResU : Nat → BitVec wU

/-- RES_S as read while busy, in two's complement. -/
opaque freeResS : Nat → BitVec wS

/-! ## Free values: buffer bytes -/

/-- `freeOut draws i`: byte i of OUT while busy, or at an index at or beyond OUT_LEN (R38, R109, I3). Log 4. -/
opaque freeOut : Nat → Nat → Byte

/-- `freeIn resets i`: byte i of IN when the host has not written it since the last reset (R103, I4). Log 3. -/
opaque freeIn : Nat → Nat → Byte

end Sys2Proof.Config
end

