-- ==== Sys2Proof/Machine/State.lean ====
section
/-! DEFINITION. The state of the machine: the block's architectural state (10_state.md R17), the one HOST agent that
drives it (R33, R60), who moves next, and the counters the free values are drawn at. Plain data throughout. -/

namespace Sys2Proof.Machine

/-- Why a step stops the run. -/
inductive Fault where
  /-- The host wrote CTRL, IN_LEN or IN while BUSY = 1. Raised by the host's register and IN writes (R34, R36,
  R105, I1). Safe: hardware may survive such a run, the model refuses it (D11). -/
  | hostWriteWhileBusy
  deriving DecidableEq, Repr

/-- Why the model gives something no meaning. -/
inductive Refusal where
  /-- An operation without a meaning yet, by mnemonic; raised by `exec`'s arms only. Safe: nothing is claimed. -/
  | notModelled (mnemonic : String)
  /-- A second host takes a turn; raised by `step`. R98 and I17 say that the model refuses it. Safe. -/
  | secondHost
  deriving DecidableEq, Repr

/-- The outcome codes of STATUS.ERR (R88). Codes 8 to 15 are never produced (R19, I13), so they are no terms. -/
inductive ErrCode where
  | ok
  | missingStx
  | missingEtx
  | frameTooShort
  | notHex
  | bccAbsent
  | bccMismatch
  | illegalOp
  deriving DecidableEq, Repr

/-- A byte buffer: the bytes it holds, addresses strictly rising. An unlisted address holds no value that the
rules give; what a read of it answers is `State.inByte` or `State.outByte` (log 3, log 4). -/
abbrev Memory := List Host.Cell

/-- The instructions of the host's program (R60), branch targets resolved to places in the program. -/
inductive HostInstr where
  /-- WREG r, imm32: HostWriteReg. -/
  | wreg (r : Nat) (v : Word)
  /-- RREG r: acc <- HostReadReg. -/
  | rreg (r : Nat)
  /-- WIN i, imm8: HostWriteIN. -/
  | win (i : Nat) (b : Byte)
  /-- WIN i, acc: the form MOVOI expands to (R61). -/
  | winAcc (i : Nat)
  /-- RIN i: acc <- HostReadIN. -/
  | rin (i : Nat)
  /-- ROUT i: acc <- HostReadOUT. -/
  | rout (i : Nat)
  /-- A host write to OUT, which R38 says is ignored; R60 gives it no mnemonic (log 11). -/
  | wout (i : Nat) (b : Byte)
  /-- BNZ mask, label: if (acc and mask) is not 0 go to the label. R60 gives the mask no width (log 9). -/
  | bnz (mask : Int) (target : Nat)
  /-- BEQ imm, label: if acc = imm go to the label. R60 gives imm no width (log 9). -/
  | beq (imm : Int) (target : Nat)
  /-- MOVOI: copy OUT to IN (R61); its expansion depends on the value read from OUT_LEN (log 10). -/
  | movoi
  /-- HALT: the host program ends. -/
  | halt
  deriving DecidableEq, Repr

/-- The HOST agent (R33): its program, its place in it, the one variable acc (R60), the rest of a running MOVOI
(R61), and whether it has halted. It is outside the block: RST leaves it alone (log 8). -/
structure HostAgent where
  prog : List HostInstr
  pc : Nat
  acc : Int
  queue : List HostInstr
  halted : Bool
  deriving DecidableEq, Repr

/-- Who moves next (R33, R101). -/
inductive Turn where
  /-- The host's next instruction. -/
  | host
  /-- The CODEC's *complete* step, if enabled. -/
  | codec
  /-- The reset input is asserted (R101). -/
  | rst
  /-- A second host, which the model refuses (R98). -/
  | secondHost
  deriving DecidableEq, Repr

/-- The whole state. CTRL keeps no value (R18), so it has no field. -/
structure State where
  /-- STATUS.ERR (R19). -/
  err : ErrCode
  /-- STATUS.BUSY (R20). -/
  busy : Bool
  /-- IN_LEN (R21). -/
  inLen : Word
  /-- OUT_LEN (R22). -/
  outLen : Word
  /-- RES_BCC.BCC, bits 7:0 of RES_BCC (R23). -/
  resBcc : Byte
  /-- RES_U, a natural number below 2^W_U (R24; log 2). -/
  resU : Nat
  /-- RES_S, an integer in the two's-complement range of W_S bits (R25; log 2). -/
  resS : Int
  /-- IN: the bytes the host has written since the last reset (R27). -/
  inBuf : Memory
  /-- OUT[0..OUT_LEN) (R28). -/
  outBuf : Memory
  /-- PEND_OP (R29). -/
  pendOp : Option (BitVec 4)
  /-- The HOST agent. -/
  host : HostAgent
  /-- Who moves next, head first; when empty, the CODEC if BUSY = 1, else the host (log 7). -/
  turns : List Turn
  /-- The counter reads of unspecified OUT bytes and reads while busy are drawn at; the model's own (log 6). -/
  draws : Nat
  /-- The counter unwritten IN bytes are drawn at: one more at each reset; the model's own (log 6). -/
  resets : Nat
  deriving DecidableEq, Repr

/-- The state right after reset (R102), with a host that has no program yet (log 8). -/
def State.reset : State where
  err := .ok
  busy := false
  inLen := 0#32
  outLen := 0#32
  resBcc := 0#8
  resU := 0
  resS := 0
  inBuf := []
  outBuf := []
  pendOp := none
  host := { prog := [], pc := 0, acc := 0, queue := [], halted := false }
  turns := []
  draws := 0
  resets := 0

end Sys2Proof.Machine
end

