-- ==== Sys2Proof/Machine/Ops.lean ====
section
/-! DEFINITION. The named operations over the buffers and the registers: reading and writing a buffer, an operation's
staged writes, and the one *complete* step of the CODEC (R43), which is also how an error is taken (R11, R92) and
how the block returns to idle. The reset input (R101) stands beside it. -/

namespace Sys2Proof.Machine

/-! ## Buffers -/

/-- The byte listed at an address, if any. -/
def Memory.read : Memory → Nat → Option Byte
  | [], _ => none
  | (k, v) :: m, a => if k = a then some v else Memory.read m a

/-- Write one byte, keeping the addresses strictly rising. -/
def Memory.write : Memory → Nat → Byte → Memory
  | [], a, b => [(a, b)]
  | (k, v) :: m, a, b =>
    if a < k then (a, b) :: (k, v) :: m
    else if a = k then (a, b) :: m
    else (k, v) :: Memory.write m a b

/-- The buffer that holds a byte sequence from address a on, and nothing else. -/
def Memory.ofBytes : Nat → List Byte → Memory
  | _, [] => []
  | a, b :: bs => (a, b) :: Memory.ofBytes (a + 1) bs

/-- The canonical form: addresses strictly rising. An unlisted address reads as no value, so no entry equals
what an unlisted address reads as. -/
def Memory.wf : Memory → Bool
  | [] => true
  | [_] => true
  | (a, _) :: (b, v) :: m => decide (a < b) && Memory.wf ((b, v) :: m)

/-- Byte i of IN: the last byte the host wrote there, or a free value if it wrote none since reset (R37, R103).
The choice never changes until the host writes the byte or reset occurs (R27, log 3). -/
def State.inByte (s : State) (i : Nat) : Byte := (s.inBuf.read i).getD (Config.freeIn s.resets i)

/-- Byte i of OUT while BUSY = 0: what the last successful operation wrote below OUT_LEN, a free value from OUT_LEN
on (R38, R109, log 4). -/
def State.outByte (s : State) (i : Nat) : Byte :=
  if i < s.outLen.toNat then (s.outBuf.read i).getD (Config.freeOut s.draws i) else Config.freeOut s.draws i

/-- `MemRead(IN:i, n)` (R10). -/
def State.memRead (s : State) (i n : Nat) : List Byte := (List.range n).map fun k => s.inByte (i + k)

/-- OUT[0..OUT_LEN), the result the host may read (R109). -/
def State.outBytes (s : State) : List Byte := (List.range s.outLen.toNat).map s.outByte

/-! ## Staged writes (R9, R10, R32) -/

/-- The writes an operation stages: a result in OUT with its length (`MemWrite(OUT:0, n, v)` and `OUT_LEN <- n`,
which always stand together), RES_BCC.BCC, and the pair RES_U, RES_S. -/
structure Writes where
  out : Option (List Byte) := none
  bcc : Option Byte := none
  num : Option (Nat × Int) := none
  deriving DecidableEq, Repr

/-- What an operation makes of its operand: its staged writes, or the error it raises (R32). -/
inductive OpResult where
  | ok (w : Writes)
  | err (e : ErrCode)
  deriving DecidableEq, Repr

/-- Write a result to OUT and OUT_LEN. OUT bytes beyond the result become unspecified (R28, R66). -/
def State.setOut (s : State) (bs : List Byte) : State :=
  { s with outBuf := Memory.ofBytes 0 bs, outLen := BitVec.ofNat 32 bs.length }

/-- Write RES_BCC.BCC (R23). -/
def State.setBcc (s : State) (b : Byte) : State := { s with resBcc := b }

/-- Write RES_U and RES_S (R24, R25). -/
def State.setNum (s : State) (u : Nat) (v : Int) : State := { s with resU := u, resS := v }

/-- Apply staged writes. -/
def State.applyWrites (s : State) (w : Writes) : State :=
  let s := match w.out with
    | some bs => s.setOut bs
    | none => s
  let s := match w.bcc with
    | some b => s.setBcc b
    | none => s
  match w.num with
    | some (u, v) => s.setNum u v
    | none => s

/-- The end of every operation: ERR takes the outcome, PEND_OP empties, BUSY clears (R43); values read while
busy are no longer the same draws (R44). -/
def State.finish (s : State) (e : ErrCode) : State :=
  { s with err := e, pendOp := none, busy := false, draws := s.draws + 1 }

/-- The CODEC's *complete* step with an operation's result (R43). An error discards every staged write and only
sets ERR (R11, R92). -/
def State.complete (s : State) : OpResult → State
  | .ok w => (s.applyWrites w).finish .ok
  | .err e => s.finish e

/-- The completion of a command with an illegal OP (R51). -/
def State.completeIllegal (s : State) : State := s.complete (.err .illegalOp)

/-! ## Starting an operation, and reset -/

/-- A command is accepted: PEND_OP <- v[3:0] and BUSY <- 1 (R18). -/
def State.start (s : State) (v : Word) : State :=
  { s with pendOp := some (opField v), busy := true, draws := s.draws + 1 }

/-- Assert RST (R101): every piece of the block's state takes its reset value (R102) and a pending operation is
aborted. The host agent and the schedule are not the block's (log 8); unwritten bytes are drawn afresh (R103). -/
def State.assertRst (s : State) : State :=
  { State.reset with host := s.host, turns := s.turns, draws := s.draws + 1, resets := s.resets + 1 }

end Sys2Proof.Machine
end

