-- ==== Sys2Proof/Machine/Operands.lean ====
section
/-! DEFINITION. The one operand form of every operation (R59) and the helper functions of R12. -/

namespace Sys2Proof.Machine

/-- The operand of every operation: `s = MemRead(IN:0, x[IN_LEN])` (R59). -/
def State.operand (s : State) : List Byte := s.memRead 0 s.inLen.toNat

/-- `s[a..b)`: the elements at indices a to b - 1, empty when b is not above a (R8). -/
def slice (s : List Byte) (a b : Nat) : List Byte := (s.drop a).take (b - a)

/-- `xorfold(s)`: the running XOR of a byte sequence, 0x00 for the empty one. -/
def xorfold (s : List Byte) : Byte := s.foldl (· ^^^ ·) 0#8

/-- `first(s, v)`: the least index at which s holds v. -/
def first : List Byte → Byte → Option Nat
  | [], _ => none
  | b :: bs, v => if b = v then some 0 else (first bs v).map (· + 1)

/-- `ishex(b)`: b is an ASCII hexadecimal digit, of either case. -/
def ishex (b : Byte) : Bool :=
  (0x30 ≤ b.toNat && b.toNat ≤ 0x39) || (0x41 ≤ b.toNat && b.toNat ≤ 0x46) || (0x61 ≤ b.toNat && b.toNat ≤ 0x66)

/-- `hexval(b)` for a hexadecimal digit. R12 gives it no value on other bytes and no operation takes one there;
the function is 0 on them (log 16). -/
def hexval (b : Byte) : Nat :=
  if 0x30 ≤ b.toNat ∧ b.toNat ≤ 0x39 then b.toNat - 0x30
  else if 0x41 ≤ b.toNat ∧ b.toNat ≤ 0x46 then b.toNat - 0x41 + 10
  else if 0x61 ≤ b.toNat ∧ b.toNat ≤ 0x66 then b.toNat - 0x61 + 10
  else 0

/-- `hexnat(s)`: the sum of hexval(s[i]) * 16^(len(s)-1-i), most significant digit first (R12, R40). -/
def hexnat : List Byte → Nat
  | [] => 0
  | b :: bs => hexval b * 16 ^ bs.length + hexnat bs

/-- `tc(u)`: subtract 2^BIT_WIDTH once if u >= 2^(BIT_WIDTH-1), whatever the size of u (R12, R79). -/
def tc (u : Nat) : Int :=
  if 2 ^ (Config.bitWidth - 1) ≤ u then (u : Int) - 2 ^ Config.bitWidth else u

end Sys2Proof.Machine
end

