-- ==== Sys2Proof/Machine/Response.lean ====
section
/-! DEFINITION. The response side (41_response.md): VALIDATE (R69), BCCCHK (R71) and EXTRACT (R73). -/

namespace Sys2Proof.Machine

/-- The boundary check shared by VALIDATE, PIPE and BCCCHK: the first byte is STX, and the answer is the index of
the first ETX (R69). MissingSTX is checked first (R90). -/
def frameEnd (s : List Byte) : Except ErrCode Nat :=
  match s with
  | [] => .error .missingStx
  | b :: _ =>
    if b ≠ Config.stx then .error .missingStx
    else match first s Config.etx with
      | none => .error .missingEtx
      | some e => .ok e

/-- The frame body, `s[1..e)` for the first ETX at e (R69). -/
def frameBody (s : List Byte) : Except ErrCode (List Byte) :=
  match frameEnd s with
  | .error e => .error e
  | .ok e => .ok (slice s 1 e)

/-- The data section of a frame body, `s[HDR_OFFSET..n)` (R73). -/
def dataSection (s : List Byte) : Except ErrCode (List Byte) :=
  if s.length < Config.minBody then .error .frameTooShort
  else .ok (slice s Config.hdrOffset s.length)

/-- VALIDATE(s) (R69). -/
def opValidate (s : List Byte) : OpResult :=
  match frameBody s with
  | .error e => .err e
  | .ok body => .ok { out := some body }

/-- EXTRACT(s) (R73). -/
def opExtract (s : List Byte) : OpResult :=
  match dataSection s with
  | .error e => .err e
  | .ok d => .ok { out := some d }

/-- BCCCHK(s) (R71): the byte after the first ETX, at e + 1, against the XOR of `s[1..e+1)`. -/
def opBccchk (s : List Byte) : OpResult :=
  match frameEnd s with
  | .error e => .err e
  | .ok e =>
    match s[e + 1]? with
    | none => .err .bccAbsent
    | some b =>
      let c := xorfold (slice s 1 (e + 1))
      if b ≠ c then .err .bccMismatch else .ok { bcc := some c }

/-- The meaning of VALIDATE. -/
def execValidate (s : State) : Host.Outcome State Fault Refusal := .next (s.complete (opValidate s.operand))

/-- The meaning of EXTRACT. -/
def execExtract (s : State) : Host.Outcome State Fault Refusal := .next (s.complete (opExtract s.operand))

/-- The meaning of BCCCHK. -/
def execBccchk (s : State) : Host.Outcome State Fault Refusal := .next (s.complete (opBccchk s.operand))

end Sys2Proof.Machine
end

