-- ==== Sys2Proof/Machine/Decoder.lean ====
section
/-! DEFINITION. The decoder DECODE (R77) and the response pipeline PIPE (R80). -/

namespace Sys2Proof.Machine

/-- Parse a data section and correct the sign: `hexnat` and then `tc`, in that order (R77, R78). -/
def reading (s : List Byte) : Except ErrCode (Nat × Int) :=
  if s = [] then .error .notHex
  else if s.all ishex then .ok (hexnat s, tc (hexnat s))
  else .error .notHex

/-- DECODE(s) (R77). -/
def opDecode (s : List Byte) : OpResult :=
  match reading s with
  | .error e => .err e
  | .ok uv => .ok { num := some uv }

/-- PIPE(s) (R80): the three stages in one step, the first failing stage's error, all the writes or none. -/
def opPipe (s : List Byte) : OpResult :=
  match frameBody s with
  | .error e => .err e
  | .ok body =>
    match dataSection body with
    | .error e => .err e
    | .ok d =>
      match reading d with
      | .error e => .err e
      | .ok uv => .ok { out := some d, num := some uv }

/-- The meaning of DECODE. -/
def execDecode (s : State) : Host.Outcome State Fault Refusal := .next (s.complete (opDecode s.operand))

/-- The meaning of PIPE. -/
def execPipe (s : State) : Host.Outcome State Fault Refusal := .next (s.complete (opPipe s.operand))

end Sys2Proof.Machine
end

