-- ==== Sys2Proof/Machine/Request.lean ====
section
/-! DEFINITION. The request side (40_request.md): BCC (R65) and BUILD (R66). Each operation is a function of its operand
(R32); its meaning completes the operation with that function's result. -/

namespace Sys2Proof.Machine

/-- BCC(s): never fails (R65). -/
def opBcc (s : List Byte) : OpResult := .ok { bcc := some (xorfold s) }

/-- BUILD's check character: the XOR of the command text and ETX (R66). -/
def buildBcc (s : List Byte) : Byte := xorfold (s ++ [Config.etx])

/-- The RequestFrame of R52: STX, command text, ETX, BCC. -/
def requestFrame (s : List Byte) : List Byte := [Config.stx] ++ s ++ [Config.etx] ++ [buildBcc s]

/-- BUILD(s): never fails, and checks nothing (R66, R68). -/
def opBuild (s : List Byte) : OpResult := .ok { out := some (requestFrame s), bcc := some (buildBcc s) }

/-- The meaning of BCC. -/
def execBcc (s : State) : Host.Outcome State Fault Refusal := .next (s.complete (opBcc s.operand))

/-- The meaning of BUILD. -/
def execBuild (s : State) : Host.Outcome State Fault Refusal := .next (s.complete (opBuild s.operand))

end Sys2Proof.Machine
end

