-- ==== Sys2Proof/Machine/Dispatch.lean ====
section
/-! DEFINITION. One arm per operation: its completion by the CODEC (R43, R51). -/

namespace Sys2Proof.Machine

/-- What an operation does when the CODEC completes it. -/
def exec (i : Instr) (s : State) : Host.Outcome State Fault Refusal :=
  match i with
  | .bcc => Sys2Proof.Machine.execBcc s
  | .build => Sys2Proof.Machine.execBuild s
  | .validate => Sys2Proof.Machine.execValidate s
  | .extract => Sys2Proof.Machine.execExtract s
  | .decode => Sys2Proof.Machine.execDecode s
  | .pipe => Sys2Proof.Machine.execPipe s
  | .bccchk => Sys2Proof.Machine.execBccchk s

end Sys2Proof.Machine
end

