-- ==== Sys2Proof/Machine/Flags.lean ====
section
/-! DEFINITION. The block's only condition state is STATUS.ERR and STATUS.BUSY (R31): their codes (R88) and the STATUS
word (R19, R20). -/

namespace Sys2Proof.Machine

/-- `code(E)`: the value STATUS.ERR holds for an outcome (R88). -/
def ErrCode.code : ErrCode → BitVec 4
  | .ok => 0#4
  | .missingStx => 1#4
  | .missingEtx => 2#4
  | .frameTooShort => 3#4
  | .notHex => 4#4
  | .bccAbsent => 5#4
  | .bccMismatch => 6#4
  | .illegalOp => 7#4

/-- The STATUS word made of BUSY and the four bits of ERR; bits 31:5 read 0 (R20, R35). -/
def statusWord (busy : Bool) (e : BitVec 4) : Word :=
  ((BitVec.ofBool busy).setWidth 32 <<< 4) ||| e.setWidth 32

end Sys2Proof.Machine
end

