-- ==== Sys2Proof/Machine/HostBus.lean ====
section
/-! DEFINITION. The host's bus accesses: registers (R34, R35), IN (R36, R37) and OUT (R38). A read answers a value and
changes nothing; a write answers the next state or the fault of R105. -/

namespace Sys2Proof.Machine

/-! ## Register numbers (R17) -/

/-- CTRL. -/
def regCtrl : Nat := 0
/-- STATUS. -/
def regStatus : Nat := 1
/-- IN_LEN. -/
def regInLen : Nat := 2
/-- OUT_LEN. -/
def regOutLen : Nat := 3
/-- RES_BCC. -/
def regResBcc : Nat := 4
/-- RES_U. -/
def regResU : Nat := 5
/-- RES_S. -/
def regResS : Nat := 6

/-! ## Registers -/

/-- HostWriteReg(r, v) (R34): CTRL starts an operation (R18), IN_LEN takes a legal length and ignores others (R21),
every other number ignores the write (R26). -/
def hostWriteReg (r : Nat) (v : Word) (s : State) : Host.Outcome State Fault Refusal :=
  if s.busy ∧ (r = regCtrl ∨ r = regInLen) then .fault .hostWriteWhileBusy
  else if r = regCtrl then .next (s.start v)
  else if r = regInLen ∧ v.toNat ≤ Config.nIn then .next { s with inLen := v, draws := s.draws + 1 }
  else .next s

/-- The STATUS word the host reads: BUSY exact, ERR free while busy (R35). -/
def State.statusRead (s : State) : Word :=
  statusWord s.busy (if s.busy then Config.freeErr s.draws else s.err.code)

/-- HostReadReg(r) (R35), as an integer: every register but RES_S answers a natural number. -/
def hostReadReg (r : Nat) (s : State) : Int :=
  if r = regStatus then s.statusRead.toNat
  else if r = regInLen then s.inLen.toNat
  else if r = regOutLen then if s.busy then (Config.freeOutLen s.draws).toNat else s.outLen.toNat
  else if r = regResBcc then if s.busy then (Config.freeResBcc s.draws).toNat else s.resBcc.toNat
  else if r = regResU then if s.busy then (Config.freeResU s.draws).toNat else s.resU
  else if r = regResS then if s.busy then (Config.freeResS s.draws).toInt else s.resS
  else 0

/-! ## Buffers -/

/-- HostWriteIN(i, b) (R36); IN_LEN is not changed. -/
def hostWriteIn (i : Nat) (b : Byte) (s : State) : Host.Outcome State Fault Refusal :=
  if s.busy then .fault .hostWriteWhileBusy
  else if i < Config.nIn then .next { s with inBuf := s.inBuf.write i b, draws := s.draws + 1 }
  else .next s

/-- HostReadIN(i) (R37): exact even while busy. -/
def hostReadIn (i : Nat) (s : State) : Byte := if i < Config.nIn then s.inByte i else 0x00#8

/-- HostReadOUT(i) (R38). -/
def hostReadOut (i : Nat) (s : State) : Byte :=
  if Config.nOut ≤ i then 0x00#8 else if s.busy then Config.freeOut s.draws i else s.outByte i

/-- A host write to OUT is ignored (R38), busy or not (R105). -/
def hostWriteOut (_ : Nat) (_ : Byte) (s : State) : Host.Outcome State Fault Refusal := .next s

end Sys2Proof.Machine
end

