-- ==== Sys2Proof/Machine/HostProgram.lean ====
section
/-! DEFINITION. The HOST agent's step: fetching its next instruction and running it (R33, R60, R61). -/

namespace Sys2Proof.Machine

/-- The rest of MOVOI once OUT_LEN has answered n: `ROUT i ; WIN i, acc` for each i below n, then
`WREG IN_LEN, n` (R61). -/
def movoiRest (n : Nat) : List HostInstr :=
  (List.range n).flatMap (fun i => [.rout i, .winAcc i]) ++ [.wreg regInLen (BitVec.ofNat 32 n)]

/-- The host's next instruction and the host after fetching it; none when it has halted or its program has no
line there. A running MOVOI comes before the program. -/
def HostAgent.fetch (h : HostAgent) : Option (HostInstr × HostAgent) :=
  match h.queue with
  | i :: q => some (i, { h with queue := q })
  | [] =>
    if h.halted then none
    else match h.prog[h.pc]? with
      | none => none
      | some i => some (i, { h with pc := h.pc + 1 })

/-- Put a value read into acc (R60). -/
def State.setAcc (s : State) (v : Int) : State := { s with host := { s.host with acc := v } }

/-- Go to a place in the host's program. -/
def State.jump (s : State) (target : Nat) : State := { s with host := { s.host with pc := target } }

/-- The bitwise `and` of two integers, each in two's complement without end (R60's `acc and mask` on R8's unbounded
integers; DESIGN CHOICE for negative ones, log 9). -/
def intAnd : Int → Int → Int
  | .ofNat a, .ofNat b => .ofNat (a &&& b)
  | .ofNat a, .negSucc b => .ofNat (a ^^^ (a &&& b))
  | .negSucc a, .ofNat b => .ofNat (b ^^^ (b &&& a))
  | .negSucc a, .negSucc b => .negSucc (a ||| b)

/-- One host instruction (R60): one bus access, or control flow without one. -/
def hostExec (i : HostInstr) (s : State) : Host.Outcome State Fault Refusal :=
  match i with
  | .wreg r v => hostWriteReg r v s
  | .rreg r => .next (s.setAcc (hostReadReg r s))
  | .win i b => hostWriteIn i b s
  | .winAcc i => hostWriteIn i (BitVec.ofInt 8 s.host.acc) s
  | .rin i => .next (s.setAcc (hostReadIn i s).toNat)
  | .rout i => .next (s.setAcc (hostReadOut i s).toNat)
  | .wout i b => hostWriteOut i b s
  | .bnz mask target =>
    .next (if intAnd s.host.acc mask = 0 then s else s.jump target)
  | .beq imm target => .next (if s.host.acc = imm then s.jump target else s)
  | .movoi =>
    let n := hostReadReg regOutLen s
    .next { s with host := { s.host with acc := n, queue := movoiRest n.toNat } }
  | .halt => .next { s with host := { s.host with halted := true } }

/-- The host's turn: its next instruction, or nothing when it has none (R100). -/
def hostTurn (s : State) : Host.Outcome State Fault Refusal :=
  match s.host.fetch with
  | none => .next s
  | some (i, h) => hostExec i { s with host := h }

/-- Give the host a program, to run from its first line (log 12). -/
def State.load (s : State) (p : List HostInstr) : State :=
  { s with host := { s.host with prog := p, pc := 0, queue := [], halted := false } }

end Sys2Proof.Machine
end

