-- ==== Sys2Proof/Machine/Sched.lean ====
section
/-! DEFINITION. Who moves next (R33), and what the CODEC has to complete (R43). -/

namespace Sys2Proof.Machine

/-- The agent that takes the next step: the head of `turns`; past its end the CODEC's step is taken as soon as it is
enabled, which is one fair schedule (R110). DESIGN CHOICE, log 7. -/
def State.nextTurn (s : State) : Turn :=
  match s.turns with
  | t :: _ => t
  | [] => if s.busy then .codec else .host

/-- The turn taken is spent. -/
def State.spendTurn (s : State) : State := { s with turns := s.turns.tail }

/-- What a CODEC turn finds to do. -/
inductive CodecWork where
  /-- BUSY = 0: the complete step is not enabled (R33). -/
  | idle
  /-- An operation to complete. -/
  | run (i : Instr)
  /-- An illegal OP to complete (R51). -/
  | illegal
  deriving DecidableEq, Repr

/-- The CODEC's work: PEND_OP decoded (R43, R51), if BUSY = 1. The last case, BUSY = 1 with no PEND_OP, is in no
reachable state (R29); it falls under R51's `otherwise` (log 15). -/
def State.codecWork (s : State) : CodecWork :=
  if s.busy then
    match s.pendOp with
    | some op =>
      match decodeOp op with
      | .ok i => .run i
      | .error _ => .illegal
    | none => .illegal
  else .idle

end Sys2Proof.Machine
end

