-- ==== Sys2Proof/Machine/Step.lean ====
section
/-! DEFINITION. One step of the machine: one atomic step of one agent (R43, R46), or the reset input (R101). -/

namespace Sys2Proof.Machine

/-- One step. -/
def step (s : State) : Host.Outcome State Fault Refusal :=
  match s.nextTurn with
  | .host => hostTurn s.spendTurn
  | .codec =>
    match s.codecWork with
    | .idle => .next s.spendTurn
    | .run i => exec i s.spendTurn
    | .illegal => .next s.spendTurn.completeIllegal
  | .rst => .next s.spendTurn.assertRst
  | .secondHost => .refused .secondHost

/-- s with the command word w accepted and the CODEC to move: the operation is in flight and the very next step
completes it. It stands for the host's CTRL write (R18); log 12. -/
def State.withFetchWord (s : State) (nbits w : Nat) : State :=
  { s with
    pendOp := some (opField (BitVec.ofNat 32 (w % 2 ^ nbits)))
    busy := true
    turns := .codec :: s.turns }

end Sys2Proof.Machine
end

