-- ==== Sys2Proof/Machine/Frames.lean ====
section
/-! DEFINITION. The wire formats of 30_encoding.md that the host builds and the operations parse: the command text's
fields (R53, R54), the response frame (R55) and the body's parts (R56). BUILD packs any bytes; the field layout is
the host's business (R53). -/

namespace Sys2Proof.Machine

/-- The fixed-width ASCII fields of a command text, in order (R53). Their widths sum to 21 (90_conflicts.md C1). -/
structure CommandText where
  node : Vector Byte 2
  subAddress : Vector Byte 2
  serviceId : Vector Byte 1
  mrc : Vector Byte 2
  src : Vector Byte 2
  variableType : Vector Byte 2
  address : Vector Byte 4
  bitPosition : Vector Byte 2
  elementCount : Vector Byte 4
  deriving DecidableEq, Repr

/-- The fields concatenated positionally (R53). -/
def commandBytes (c : CommandText) : List Byte :=
  c.node.toList ++ c.subAddress.toList ++ c.serviceId.toList ++ c.mrc.toList ++ c.src.toList ++
    c.variableType.toList ++ c.address.toList ++ c.bitPosition.toList ++ c.elementCount.toList

/-- The field values the source fixes (R54): Node "01", Address "0002", ElementCount "0001". -/
def sourceFields (c : CommandText) : Bool :=
  c.node.toList == [0x30, 0x31] && c.address.toList == [0x30, 0x30, 0x30, 0x32] &&
    c.elementCount.toList == [0x30, 0x30, 0x30, 0x31]

/-- The spec's example command text "010000101C00002000001" (R54), an example and not the source's constant. -/
def exampleCommand : CommandText where
  node := #v[0x30, 0x31]
  subAddress := #v[0x30, 0x30]
  serviceId := #v[0x30]
  mrc := #v[0x30, 0x31]
  src := #v[0x30, 0x31]
  variableType := #v[0x43, 0x30]
  address := #v[0x30, 0x30, 0x30, 0x32]
  bitPosition := #v[0x30, 0x30]
  elementCount := #v[0x30, 0x30, 0x30, 0x31]

/-- A response frame around a body, without a BCC: STX, body, ETX (R55, R70's `frame(b)`). -/
def responseFrame (body : List Byte) : List Byte := [Config.stx] ++ body ++ [Config.etx]

/-- A frame body from its 13 header characters and its data section (R56). -/
def bodyOf (header : Vector Byte 13) (data : List Byte) : List Byte := header.toList ++ data

/-- The body of the source's worked response, "010000010210000000000000000FFF6" (90_conflicts.md C6). -/
def exampleBody : List Byte :=
  [0x30, 0x31, 0x30, 0x30, 0x30, 0x30, 0x30, 0x31, 0x30, 0x32, 0x31, 0x30, 0x30, 0x30, 0x30, 0x30] ++
    [0x30, 0x30, 0x30, 0x30, 0x30, 0x30, 0x30, 0x30, 0x30, 0x30, 0x30, 0x46, 0x46, 0x46, 0x36]

/-- Its data section, "00000000000000FFF6". -/
def exampleData : List Byte :=
  [0x30, 0x30, 0x30, 0x30, 0x30, 0x30, 0x30, 0x30, 0x30, 0x30, 0x30, 0x30, 0x30, 0x30, 0x46, 0x46, 0x46, 0x36]

end Sys2Proof.Machine
end

