-- ==== Sys2Proof/Machine/Reading.lean ====
section
/-! DEFINITION. What the host makes of the block's bytes and results: DecodedReading (R82, R83), the decimal string for
the sink (R84) and the lossy ASCII filter (R86). The block does none of this itself. -/

namespace Sys2Proof.Machine

/-- DecodedReading: the rational RES_S / SCALE, by exact division (R82, R83). -/
def decodedReading (v : Int) : ℚ := (v : ℚ) / (Config.scale : ℚ)

/-- The ASCII character of a decimal digit. -/
def decDigit (d : Nat) : Byte := BitVec.ofNat 8 (0x30 + d)

/-- The decimal digits of k, most significant first; `fuel` bounds their number. -/
def decDigits : Nat → Nat → List Byte
  | 0, k => [decDigit (k % 10)]
  | fuel + 1, k => if k < 10 then [decDigit k] else decDigits fuel (k / 10) ++ [decDigit (k % 10)]

/-- `dec(k)`: the decimal digits of k without leading zeros; `dec(0) = "0"` (R84). k itself is fuel enough. -/
def dec (k : Nat) : List Byte := decDigits k k

/-- `render6(v)`: the decimal string with six fractional digits, in ASCII (R84). -/
def render6 (v : Int) : List Byte :=
  (if v < 0 then [0x2D#8] else []) ++ dec (v.natAbs / Config.scale) ++ [0x2E#8] ++
    dec (v.natAbs % Config.scale) ++ [0x30#8, 0x30#8, 0x30#8, 0x30#8, 0x30#8]

/-- The host's lossy ASCII filter: drop each byte of 0x80 and above (R86). -/
def asciiFilter (r : List Byte) : List Byte := r.filter fun b => b.toNat < 0x80

end Sys2Proof.Machine
end

