-- ==== Sys2Proof/Machine/HostAsm.lean ====
section
/-! DEFINITION. The host assembly (R60): lines with labels, the pseudo-instructions and their expansions (R61), and the
assembler that resolves labels. The parts of a poll cycle that touch the block (R87) are written in it. -/

namespace Sys2Proof.Machine

/-- An instruction of the host assembly. Labels are numbered (log 18). -/
inductive AsmOp where
  | wreg (r : Nat) (v : Word)
  | rreg (r : Nat)
  | win (i : Nat) (b : Byte)
  | rin (i : Nat)
  | rout (i : Nat)
  | bnz (mask : Int) (label : Nat)
  | beq (imm : Int) (label : Nat)
  | halt
  /-- `BCC` to `BCCCHK`: write the operation's command word to CTRL. -/
  | op (i : Instr)
  /-- `WAIT`: read STATUS until BUSY = 0. -/
  | wait
  /-- `XEQ op`: start the operation and wait for it. -/
  | xeq (i : Instr)
  /-- `LOADIN bytes`: write the bytes to IN and their number to IN_LEN. -/
  | loadin (bs : List Byte)
  /-- `JERR label`: go to the label if ERR is not OK. -/
  | jerr (label : Nat)
  /-- `MOVOI`: copy OUT to IN. -/
  | movoi
  deriving DecidableEq, Repr

/-- A line: `[label:] MNEMONIC operands` (R60). -/
structure AsmLine where
  label : Option Nat := none
  op : AsmOp
  deriving DecidableEq, Repr

/-- `WIN i, b` for each byte in turn. -/
def winAll : Nat → List Byte → List HostInstr
  | _, [] => []
  | i, b :: bs => .win i b :: winAll (i + 1) bs

/-- `WAIT` assembled at a place: `w: RREG STATUS ; BNZ 0x10, w` (R61). -/
def waitAt (base : Nat) : List HostInstr := [.rreg regStatus, .bnz 0x10 base]

/-- `LOADIN` (R61). -/
def loadinCode (bs : List Byte) : List HostInstr :=
  winAll 0 bs ++ [.wreg regInLen (BitVec.ofNat 32 bs.length)]

/-- How many host instructions a line expands to. -/
def AsmOp.size : AsmOp → Nat
  | .loadin bs => bs.length + 1
  | .wait | .jerr _ => 2
  | .xeq _ => 3
  | _ => 1

/-- The expansion of a line assembled at a place, its labels resolved (R61); none if a label is not defined. -/
def AsmOp.expand (resolve : Nat → Option Nat) (base : Nat) : AsmOp → Option (List HostInstr)
  | .wreg r v => some [.wreg r v]
  | .rreg r => some [.rreg r]
  | .win i b => some [.win i b]
  | .rin i => some [.rin i]
  | .rout i => some [.rout i]
  | .bnz mask l => (resolve l).map fun t => [.bnz mask t]
  | .beq imm l => (resolve l).map fun t => [.beq imm t]
  | .halt => some [.halt]
  | .op i => some [.wreg regCtrl (encode i)]
  | .wait => some (waitAt base)
  | .xeq i => some (.wreg regCtrl (encode i) :: waitAt (base + 1))
  | .loadin bs => some (loadinCode bs)
  | .jerr l => (resolve l).map fun t => [.rreg regStatus, .bnz 0x0F t]
  | .movoi => some [.movoi]

/-- Where a label stands, the program's first line standing at `base`. R60 does not say which line a label defined on two
lines names: here the first such line. DESIGN CHOICE, log 18. -/
def labelPlace : Nat → List AsmLine → Nat → Option Nat
  | _, [], _ => none
  | base, l :: ls, name => if l.label = some name then some base else labelPlace (base + l.op.size) ls name

/-- Assemble lines from a place on. -/
def assembleFrom (resolve : Nat → Option Nat) : Nat → List AsmLine → Option (List HostInstr)
  | _, [] => some []
  | base, l :: ls =>
    match l.op.expand resolve base, assembleFrom resolve (base + l.op.size) ls with
    | some a, some b => some (a ++ b)
    | _, _ => none

/-- Assemble a host program; none if it uses a label it does not define. -/
def assemble (ls : List AsmLine) : Option (List HostInstr) := assembleFrom (labelPlace 0 ls) 0 ls

/-! ## One poll cycle on the block (R87)

The loop around these, the link, the sleeps and the sink are the host's, outside the block (R5). What the link has buffered
is an input here, and one branch of one cycle is one host program that ends in HALT, for the loop to load (log 24). -/

/-- A line without a label. -/
def AsmOp.line (op : AsmOp) : AsmLine := ⟨none, op⟩

/-- Build a request from a command text and read it for the link: `LOADIN c ; XEQ BUILD`, then OUT_LEN and
OUT[0..OUT_LEN), in index order (R39). OUT_LEN is the text's length and 3 (R66). -/
def requestLines (c : List Byte) : List AsmLine :=
  let ops : List AsmOp := [.loadin c, .xeq .build, .rreg regOutLen] ++ (List.range (c.length + 3)).map AsmOp.rout ++ [.halt]
  ops.map AsmOp.line

/-- The branch without inbound bytes: the request is CMD_TEXT's. -/
def pollRequest : List AsmLine := requestLines Config.cmdText.toList

/-- The branch with inbound bytes r: filter them, keep what IN holds, run the pipeline (`LOADIN r ; XEQ PIPE`), then read
RES_S for the sink if ERR = OK, else STATUS for the report. -/
def pollResponse (r : List Byte) : List AsmLine :=
  ([.loadin ((asciiFilter r).take Config.nIn), .xeq .pipe, .jerr 0, .rreg regResS, .halt] : List AsmOp).map AsmOp.line ++
    [⟨some 0, .rreg regStatus⟩, ⟨none, .halt⟩]

/-- One cycle, by what the link has buffered. -/
def pollCycle (inbound : List Byte) : List AsmLine := if inbound = [] then pollRequest else pollResponse inbound

/-- `link.write(OUT[0..OUT_LEN))`: the bytes the host's reads of OUT_LEN and OUT give it for the link. -/
def linkWrite (s : State) : List Byte := (List.range (hostReadReg regOutLen s).toNat).map fun i => hostReadOut i s

/-- What the host does with a response once BUSY = 0. -/
inductive PollOutcome where
  /-- `sink.publish(key, text)`. -/
  | publish (text : List Byte)
  /-- Report ERR and continue: no frame error is fatal. -/
  | report (err : BitVec 4)
  deriving DecidableEq, Repr

/-- ERR and RES_S as the host reads them: the rendered reading if ERR = OK, else the report of ERR (R84, R88). -/
def pollOutcome (s : State) : PollOutcome :=
  let e := intAnd (hostReadReg regStatus s) 0x0F
  if e = 0 then .publish (render6 (hostReadReg regResS s)) else .report (BitVec.ofInt 4 e)

/-- What the sink is given after a response, if anything. -/
def pollPublish (s : State) : Option (List Byte) :=
  match pollOutcome s with
  | .publish text => some text
  | .report _ => none

end Sys2Proof.Machine
end

