-- ==== Sys2Proof/Safety.lean ====
section
/-! DEFINITION. What every reachable state of the machine satisfies, the frames claims are stated in, and what a good
end of a run is. -/

namespace Sys2Proof.Machine

/-- Every address a buffer lists lies below a bound. -/
abbrev Memory.below (m : Memory) (n : Nat) : Prop := ∀ c ∈ m, c.1 < n

/-- The invariant of the block: what 10_state.md says holds at all times. -/
structure State.Inv (s : State) : Prop where
  /-- PEND_OP is held if and only if BUSY = 1 (R29). -/
  busy_iff : s.busy = s.pendOp.isSome
  /-- IN_LEN is a legal length (R21). -/
  inLen_le : s.inLen.toNat ≤ Config.nIn
  /-- OUT_LEN is a legal length (R22). -/
  outLen_le : s.outLen.toNat ≤ Config.nOut
  /-- IN is in canonical form and lies in its index range (R27, R33). -/
  in_wf : s.inBuf.wf = true
  in_below : s.inBuf.below Config.nIn
  /-- OUT is in canonical form and lists exactly the indices below OUT_LEN (R28). -/
  out_wf : s.outBuf.wf = true
  out_listed : ∀ i, (s.outBuf.read i).isSome = decide (i < s.outLen.toNat)
  /-- RES_U fits W_U bits (R24). -/
  resU_lt : s.resU < 2 ^ Config.wU
  /-- RES_S is the corrected RES_U (R25). -/
  resS_eq : s.resS = tc s.resU

/-! ## Frames: what an operation leaves unchanged -/

/-- What every operation leaves unchanged: IN, IN_LEN and so the operand (R108), the host and the schedule. -/
def KeepsInput (s t : State) : Prop :=
  t.inLen = s.inLen ∧ t.operand = s.operand ∧ (∀ a, t.inBuf.read a = s.inBuf.read a) ∧
    (∀ a, t.inByte a = s.inByte a) ∧ t.host = s.host ∧ t.turns = s.turns ∧ t.resets = s.resets

/-- OUT and OUT_LEN are unchanged. -/
def KeepsOut (s t : State) : Prop := t.outLen = s.outLen ∧ ∀ a, t.outBuf.read a = s.outBuf.read a

/-- RES_BCC is unchanged. -/
def KeepsBcc (s t : State) : Prop := t.resBcc = s.resBcc

/-- RES_U and RES_S are unchanged. -/
def KeepsNum (s t : State) : Prop := t.resU = s.resU ∧ t.resS = s.resS

/-- OUT holds a result and OUT_LEN its length; no byte beyond it holds a value (R28, R109). -/
def State.OutHolds (t : State) (bs : List Byte) : Prop :=
  t.outBytes = bs ∧ t.outLen.toNat = bs.length ∧ ∀ a, bs.length ≤ a → t.outBuf.read a = none

/-- The operation is over with an outcome (R43). -/
def State.Completed (t : State) (e : ErrCode) : Prop := t.err = e ∧ t.busy = false ∧ t.pendOp = none

/-- The operation raised an error: only STATUS and PEND_OP differ (R11). -/
def Raises (s t : State) (e : ErrCode) : Prop :=
  t.Completed e ∧ KeepsInput s t ∧ KeepsOut s t ∧ KeepsBcc s t ∧ KeepsNum s t

/-! ## Good runs -/

/-- A good end of a host program. R105 speaks of a good final state and does not define it: here the host has halted and
no operation is in flight, so that a HALT with BUSY = 1 is none. DESIGN CHOICE, log 26. A run that faulted has no such end:
a fault is recorded for good, since no step follows it (R105, log 23). -/
def State.goodEnd (s : State) : Bool := s.host.halted && !s.busy

end Sys2Proof.Machine
end

