-- ==== Sys2Proof/WellFormed.lean ====
section
/-! DEFINITION. Which terms are well formed: operations, command words, and the command text a host may give BUILD
for its frame to be a valid request (R66, R68, R99). -/

namespace Sys2Proof

/-- An operation has no operand field (R49, R59), so every term of `Instr` is well formed. -/
def Instr.wellFormed : Instr → Bool
  | .bcc | .build | .validate | .extract | .decode | .pipe | .bccchk => true

/-- A command word that selects one of the seven operations (R50) rather than IllegalOp (R51). -/
def legalCommand (w : Word) : Bool := 1 ≤ (opField w).toNat && (opField w).toNat ≤ 7

/-- A command word as software should write it: legal, and bits 31:4 zero (R49). -/
def canonicalCommand (w : Word) : Bool := legalCommand w && w == (opField w).setWidth 32

/-- A byte that may stand in a command text: ASCII, and neither STX nor ETX (R66's precondition). -/
def commandByteOk (b : Byte) : Bool := b.toNat < 0x80 && b != Config.stx && b != Config.etx

/-- The host's duty on command text (R99). BUILD does not check it (R68). -/
def commandTextOk (s : List Byte) : Bool := s.all commandByteOk

end Sys2Proof
end

