-- ==== Sys2Proof/Certificates/Slice0/Obligations.lean ====
section
/-! DEFINITION. The statements about the block for the provers, in the order of the spec's files. An operation's operand is
`s.operand`; `KeepsInput`, `KeepsOut`, `KeepsBcc`, `KeepsNum` say what it leaves unchanged (Safety.lean). -/

open Sys2Proof Sys2Proof.Machine

/-! ## Encoding -/

/-- R62: every value of OP selects exactly one row of the table or the illegal class; each row's pattern is its OP and
its mask 0xF; the decoder agrees with the table. -/
def Obligations.OpcodeTableSelectsOneRow : Prop :=
  (∀ r ∈ opTable, r.pattern = r.instr.op.setWidth 32 ∧ r.mask = 0x0000000F#32) ∧
  ∀ w : Word,
    ((∃ r ∈ opTable, r.selects w = true ∧ (∀ r' ∈ opTable, r'.selects w = true → r' = r) ∧
        decode w = .ok r.instr) ∧ 1 ≤ (opField w).toNat ∧ (opField w).toNat ≤ 7) ∨
    ((∀ r ∈ opTable, r.selects w = false) ∧ decode w = .error (.illegalOp (opField w)) ∧
      (opField w = 0#4 ∨ 8 ≤ (opField w).toNat))

/-- Decoding and encoding agree on every operation and every word: a word decodes to i exactly when its bits 3:0 are
those of i's command word. -/
def Obligations.DecodeEncodeAgree : Prop :=
  (∀ i : Instr, i.wellFormed = true → decode (encode i) = .ok i ∧ canonicalCommand (encode i) = true) ∧
  (∀ (w : Word) (i : Instr), decode w = .ok i ↔ w &&& 0x0000000F#32 = encode i) ∧
  (∀ (w : Word) (i : Instr), decode w = .ok i ↔ decodeTableWord 32 w.toNat = some i)

/-- Command words of 95_test_vectors.md and R61 decode to the operation they stand for. -/
def Obligations.SpecWordsDecode : Prop :=
  decode 0x00000001#32 = .ok .bcc ∧ decode 0x00000002#32 = .ok .build ∧ decode 0x00000003#32 = .ok .validate ∧
  decode 0x00000004#32 = .ok .extract ∧ decode 0x00000005#32 = .ok .decode ∧ decode 0x00000006#32 = .ok .pipe ∧
  decode 0x00000007#32 = .ok .bccchk ∧ decode 0x00000071#32 = .ok .bcc ∧ decode 0x12345676#32 = .ok .pipe ∧
  decode 0x00000000#32 = .error (.illegalOp 0x0#4) ∧ decode 0xFFFFFFF8#32 = .error (.illegalOp 0x8#4)

/-- R51: OP 0x0 and 0x8 to 0xF are illegal; such a command completes with ERR = 7 and nothing else changes; OP 1 to 7
run their operation; bits 31:4 never matter; every 32-bit CTRL value selects exactly one operation or IllegalOp. -/
def Obligations.IllegalCommandsCompleteWithIllegalOp : Prop :=
  (∀ w : Word, (opField w = 0#4 ∨ 8 ≤ (opField w).toNat) → ∀ s : State, s.nextTurn = .codec → s.busy = true →
    s.pendOp = some (opField w) →
    ∃ t, step s = .next t ∧ Raises s.spendTurn t .illegalOp ∧ t.err.code = 7#4) ∧
  (∀ (i : Instr) (s : State), s.nextTurn = .codec → s.busy = true → s.pendOp = some i.op →
    step s = exec i s.spendTurn) ∧
  [Instr.bcc, .build, .validate, .extract, .decode, .pipe, .bccchk].map Instr.op = [1, 2, 3, 4, 5, 6, 7] ∧
  (∀ (i : Instr) (w : Word), opField w = i.op ↔ decode w = .ok i) ∧
  (∀ w w' : Word, opField w = opField w' → decode w = decode w') ∧
  (∀ w : Word, (decode w = .error (.illegalOp (opField w)) ∧ (opField w = 0#4 ∨ 8 ≤ (opField w).toNat)) ∨
    (∃ i, decode w = .ok i ∧ (∀ j, decode w = .ok j → j = i) ∧ 1 ≤ (opField w).toNat ∧ (opField w).toNat ≤ 7))

/-! ## The step -/

/-- When it is the CODEC's turn and the operation in flight decodes to i, a step is exec of i, the turn spent. -/
def Obligations.StepRunsPendingOperation : Prop :=
  ∀ (s : State) (op : BitVec 4) (i : Instr), s.nextTurn = .codec → s.busy = true → s.pendOp = some op →
    decodeOp op = .ok i → i.wellFormed = true → step s = exec i s.spendTurn

/-- A command word placed by withFetchWord (which stands for the accepted CTRL write, log 12) is the one the next step
completes, on the operand that is in IN. -/
def Obligations.AcceptedCommandRunsNext : Prop :=
  ∀ (s : State) (nbits w : Nat) (i : Instr), decodeTableWord nbits w = some i →
    ∃ u : State, step (s.withFetchWord nbits w) = exec i u ∧ u.operand = s.operand ∧
      KeepsOut s u ∧ KeepsBcc s u ∧ KeepsNum s u ∧ u.turns = s.turns ∧ u.host = s.host

/-- R43: the complete step is enabled exactly when BUSY = 1 (with BUSY = 0 no CODEC turn changes STATUS, OUT or a
result); it runs the operation of PEND_OP on the operand in IN, sets ERR, empties PEND_OP and clears BUSY in one step, and
on an error writes nothing else. -/
def Obligations.CompletionIsAtomic : Prop :=
  ∀ s : State, s.nextTurn = .codec →
    (s.busy = false → ∀ t, step s = .next t →
      t.err = s.err ∧ t.busy = false ∧ KeepsOut s t ∧ KeepsBcc s t ∧ KeepsNum s t) ∧
    (s.busy = true → ∃ t, step s = .next t ∧ t.busy = false ∧ t.pendOp = none ∧ KeepsInput s.spendTurn t ∧
      (∀ i : Instr, s.pendOp = some i.op → exec i s.spendTurn = .next t ∧ s.spendTurn.operand = s.operand) ∧
      (∀ op, s.pendOp = some op → (op = 0#4 ∨ 8 ≤ op.toNat) → t.err = .illegalOp) ∧
      (t.err ≠ .ok → Raises s.spendTurn t t.err))

/-! ## Reset -/

/-- R102: every register at its reset value, nothing in flight, CTRL reads 0, every IN and OUT byte unspecified. -/
def Obligations.ResetLeavesSpecValues : Prop :=
  let s := State.reset
  s.err.code = 0#4 ∧ s.busy = false ∧ s.inLen = 0#32 ∧ s.outLen = 0#32 ∧ s.resBcc = 0#8 ∧ s.resU = 0 ∧ s.resS = 0 ∧
  s.pendOp = none ∧ (∀ r, hostReadReg r s = 0) ∧
  (∀ i, i < Config.nIn → s.inBuf.read i = none ∧ hostReadIn i s = Config.freeIn s.resets i) ∧
  (∀ i, i < Config.nOut → s.outBuf.read i = none ∧ hostReadOut i s = Config.freeOut s.draws i)

/-- R101: RST at any time, busy or not, is one step to the reset values; a pending operation is aborted and writes
nothing. -/
def Obligations.AssertingRstResetsTheBlock : Prop :=
  ∀ s : State, s.nextTurn = .rst → ∃ t, step s = .next t ∧
    t.err = .ok ∧ t.busy = false ∧ t.inLen = 0#32 ∧ t.outLen = 0#32 ∧ t.resBcc = 0#8 ∧ t.resU = 0 ∧ t.resS = 0 ∧
    t.pendOp = none ∧ t.operand = [] ∧ (∀ i, t.inBuf.read i = none) ∧ (∀ i, t.outBuf.read i = none)

/-! ## The invariant -/

/-- The invariant of the block holds at reset. -/
def Obligations.ResetMeetsTheInvariant : Prop := State.reset.Inv

/-- The invariant of the block (busy iff an operation is in flight, legal lengths, buffers in canonical form and in
range, OUT listing exactly its valid bytes, RES_U within its width, RES_S the corrected RES_U) is kept by every step,
from every state that meets it. -/
def Obligations.StepKeepsTheInvariant : Prop :=
  ∀ s t : State, s.Inv → step s = .next t → t.Inv

/-- R29: PEND_OP is set by a CTRL write at BUSY = 0, reset to NONE by completion, NONE after reset, not readable by the
host, and held exactly while BUSY = 1 (kept by every step). -/
def Obligations.PendOpHeldExactlyWhileBusy : Prop :=
  State.reset.pendOp = none ∧
  (∀ (s : State) (v : Word), s.busy = false →
    ∃ t, hostWriteReg regCtrl v s = .next t ∧ t.pendOp = some (opField v) ∧ t.busy = true) ∧
  (∀ s t : State, s.nextTurn = .codec → s.busy = true → step s = .next t → t.pendOp = none ∧ t.busy = false) ∧
  (∀ s t : State, s.busy = s.pendOp.isSome → step s = .next t → t.busy = t.pendOp.isSome) ∧
  (∀ (s : State) (p : Option (BitVec 4)) (k : Nat), hostReadReg k { s with pendOp := p } = hostReadReg k s ∧
    hostReadIn k { s with pendOp := p } = hostReadIn k s ∧ hostReadOut k { s with pendOp := p } = hostReadOut k s)

/-- RES_U and RES_S never overflow W_U and W_S bits, and RES_S lies in the range R25 gives. -/
def Obligations.ResultRegistersFitTheirWidths : Prop :=
  ∀ s : State, s.Inv → s.resU < 2 ^ Config.wU ∧
    -(2 : Int) ^ (Config.wS - 1) ≤ s.resS ∧ s.resS < (2 : Int) ^ (Config.wS - 1) ∧
    -32768 ≤ s.resS ∧ s.resS ≤ max 32767 ((16 : Int) ^ Config.nIn - 1 - 65536)

/-! ## Helper functions -/

/-- R13's first half, and why `tc` is not a sign extension: below 2^16 it is sext_16, from 2^16 on it is u - 65536,
never negative, and it differs from sext_16 somewhere. -/
def Obligations.TcAgainstSignExtension : Prop :=
  (∀ u : Nat, u < 2 ^ Config.bitWidth → tc u = (BitVec.ofNat 16 u).toInt) ∧
  (∀ u : Nat, 2 ^ Config.bitWidth ≤ u → tc u = (u : Int) - 65536 ∧ 0 ≤ tc u) ∧
  ∃ u : Nat, tc u ≠ (BitVec.ofNat 16 u).toInt

/-- `hexnat` is the sum of the digits' values weighted by powers of 16, most significant first: it takes a digit
appended on the right in Horner's way, leading zeros do not change it, and n hexadecimal digits give less than 16^n. The
digits and their values are R12's three ranges, and `ishex` takes no other byte. -/
def Obligations.HexnatIsPositional : Prop :=
  (∀ (s : List Byte) (b : Byte), hexnat (s ++ [b]) = 16 * hexnat s + hexval b) ∧
  (∀ (s : List Byte) (k : Nat), hexnat (List.replicate k 0x30#8 ++ s) = hexnat s) ∧
  (∀ s : List Byte, (∀ b ∈ s, ishex b = true) → hexnat s < 16 ^ s.length) ∧
  (∀ b : Byte, 0x30 ≤ b.toNat → b.toNat ≤ 0x39 → ishex b = true ∧ hexval b = b.toNat - 0x30) ∧
  (∀ b : Byte, 0x41 ≤ b.toNat → b.toNat ≤ 0x46 → ishex b = true ∧ hexval b = b.toNat - 0x41 + 10) ∧
  (∀ b : Byte, 0x61 ≤ b.toNat → b.toNat ≤ 0x66 → ishex b = true ∧ hexval b = b.toNat - 0x61 + 10) ∧
  (∀ b : Byte, (b.toNat < 0x30 ∨ (0x39 < b.toNat ∧ b.toNat < 0x41) ∨ (0x46 < b.toNat ∧ b.toNat < 0x61) ∨
    0x66 < b.toNat) → ishex b = false)

/-! ## Request side -/

/-- R65: BCC writes the XOR of its operand to RES_BCC and 0 to ERR, cannot fail, and writes nothing else. -/
def Obligations.BccWritesTheChecksum : Prop :=
  (∀ s : State, ∃ t, exec .bcc s = .next t ∧ t.resBcc = xorfold s.operand ∧ t.Completed .ok ∧
    KeepsInput s t ∧ KeepsOut s t ∧ KeepsNum s t) ∧
  encode .bcc = 0x00000001#32 ∧ xorfold [] = 0x00#8 ∧ (∀ s, xorfold (s ++ [xorfold s]) = 0x00#8) ∧
  (∀ (s : List Byte) (b : Byte), xorfold (s ++ [b]) = xorfold s ^^^ b) ∧
  xorfold (commandBytes exampleCommand ++ [0x03#8]) = 0x42#8

/-- R66: BUILD writes STX, the operand, ETX and the check character to OUT, the length to OUT_LEN, the check character
to RES_BCC and 0 to ERR; the frame always fits; any byte is packed. -/
def Obligations.BuildWritesTheRequestFrame : Prop :=
  (∀ s : State, s.inLen.toNat ≤ Config.nIn → ∃ t, exec .build s = .next t ∧
    t.OutHolds ([0x02#8] ++ s.operand ++ [0x03#8] ++ [xorfold s.operand ^^^ 0x03#8]) ∧
    t.outLen.toNat = s.inLen.toNat + 3 ∧ t.outLen.toNat ≤ Config.nOut ∧
    t.resBcc = xorfold s.operand ^^^ 0x03#8 ∧ t.Completed .ok ∧ KeepsInput s t ∧ KeepsNum s t) ∧
  (∀ s : State, s.inLen = 0#32 → ∃ t, exec .build s = .next t ∧ t.OutHolds [0x02#8, 0x03#8, 0x03#8]) ∧
  encode .build = 0x00000002#32 ∧
  requestFrame (commandBytes exampleCommand) =
    [0x02#8] ++ commandBytes exampleCommand ++ [0x03#8, 0x42#8]

/-- R67: XORing the command bytes, the ETX and the BCC of a built frame gives zero; BCC over the frame without its STX
gives 0x00, and without STX and BCC byte gives that BCC byte. -/
def Obligations.BuiltFramesCloseUnderXor : Prop :=
  ∀ s b : State, s.inLen.toNat ≤ Config.nIn → exec .build s = .next b →
    let f := b.outBytes
    let n := s.operand.length
    xorfold (slice f 1 (n + 3)) = 0x00#8 ∧
    (∀ u : State, u.operand = slice f 1 (n + 3) → ∃ t, exec .bcc u = .next t ∧ t.resBcc = 0x00#8) ∧
    (∀ u : State, u.operand = slice f 1 (n + 2) → ∃ t, exec .bcc u = .next t ∧ f[n + 2]? = some t.resBcc)

/-- R68: BUILD does not check its precondition. Its output is R66's formula for every operand; for a command text that
is ASCII without STX and ETX the frame ends where a receiver delimits it, and for one with an ETX the receiver
delimits it at the embedded ETX. -/
def Obligations.BuildDoesNotCheckItsOperand : Prop :=
  (∀ s : State, s.inLen.toNat ≤ Config.nIn →
    ∃ t, exec .build s = .next t ∧ t.err = .ok ∧ t.outBytes = requestFrame s.operand) ∧
  (∀ c : List Byte, commandTextOk c = true →
    first (requestFrame c) Config.etx = some (c.length + 1) ∧ frameBody (requestFrame c) = .ok c) ∧
  (∀ (c : List Byte) (k : Nat), first c Config.etx = some k →
    first (requestFrame c) Config.etx = some (k + 1) ∧ frameBody (requestFrame c) = .ok (c.take k))

/-- R52: the request frame, byte by byte. -/
def Obligations.RequestFrameLayout : Prop :=
  ∀ txt : List Byte,
    (requestFrame txt).length = txt.length + 3 ∧ (requestFrame txt)[0]? = some 0x02#8 ∧
    (∀ k, k < txt.length → (requestFrame txt)[k + 1]? = txt[k]?) ∧
    (requestFrame txt)[txt.length + 1]? = some 0x03#8 ∧
    (requestFrame txt)[txt.length + 2]? = some (xorfold (txt ++ [0x03#8])) ∧
    (txt.length = 21 → (requestFrame txt).length = 24)

/-- R53: the command text's fields, their offsets and widths, 21 characters in all; BUILD packs whatever bytes IN
holds. -/
def Obligations.CommandTextLayout : Prop :=
  (∀ s : State, s.inLen.toNat ≤ Config.nIn →
    ∃ t, exec .build s = .next t ∧ t.outBytes = [0x02#8] ++ s.operand ++ [0x03#8, xorfold s.operand ^^^ 0x03#8]) ∧
  ∀ c : CommandText,
    (commandBytes c).length = 21 ∧ slice (commandBytes c) 0 2 = c.node.toList ∧
    slice (commandBytes c) 2 4 = c.subAddress.toList ∧ slice (commandBytes c) 4 5 = c.serviceId.toList ∧
    slice (commandBytes c) 5 7 = c.mrc.toList ∧ slice (commandBytes c) 7 9 = c.src.toList ∧
    slice (commandBytes c) 9 11 = c.variableType.toList ∧ slice (commandBytes c) 11 15 = c.address.toList ∧
    slice (commandBytes c) 15 17 = c.bitPosition.toList ∧ slice (commandBytes c) 17 21 = c.elementCount.toList

/-! ## Response side -/

/-- R69: VALIDATE checks the first byte, then looks for the first ETX, and strips both. -/
def Obligations.ValidateStripsTheFrame : Prop :=
  (∀ s : State, s.operand.head? ≠ some 0x02#8 → ∃ t, exec .validate s = .next t ∧ Raises s t .missingStx) ∧
  (∀ s : State, s.operand.head? = some 0x02#8 → 0x03#8 ∉ s.operand →
    ∃ t, exec .validate s = .next t ∧ Raises s t .missingEtx) ∧
  (∀ (s : State) (e : Nat), s.operand.head? = some 0x02#8 → first s.operand 0x03#8 = some e →
    ∃ t, exec .validate s = .next t ∧ t.OutHolds (slice s.operand 1 e) ∧ t.outLen.toNat = e - 1 ∧ 1 ≤ e ∧
      t.Completed .ok ∧ KeepsInput s t ∧ KeepsBcc s t ∧ KeepsNum s t) ∧
  encode .validate = 0x00000003#32 ∧
  opValidate (responseFrame exampleBody) = .ok { out := some exampleBody } ∧ exampleBody.length = 31

/-- R70: the validator's three laws. -/
def Obligations.ValidatorLaws : Prop :=
  (∀ (b tail : List Byte) (s : State), 0x03#8 ∉ b → b.length + 2 + tail.length ≤ Config.nIn →
    s.operand = responseFrame b ++ tail → ∃ t, exec .validate s = .next t ∧ t.err = .ok ∧ t.outBytes = b) ∧
  (∀ s t u : State, exec .validate s = .next t → t.err = .ok → u.operand = responseFrame t.outBytes →
    ∃ v, exec .validate u = .next v ∧ v.err = .ok ∧ v.outBytes = t.outBytes) ∧
  (∀ s : State, (s.operand = [] ∨ s.operand.head? ≠ some 0x02#8) →
    ∃ t, exec .validate s = .next t ∧ t.err = .missingStx) ∧
  (∀ s : State, s.operand.head? = some 0x02#8 → 0x03#8 ∉ s.operand →
    ∃ t, exec .validate s = .next t ∧ t.err = .missingEtx)

/-- R71: BCCCHK checks the byte after the first ETX against the XOR of the bytes after STX through ETX. -/
def Obligations.BccchkChecksTheTrailingByte : Prop :=
  (∀ s : State, s.operand.head? ≠ some 0x02#8 → ∃ t, exec .bccchk s = .next t ∧ Raises s t .missingStx) ∧
  (∀ s : State, s.operand.head? = some 0x02#8 → 0x03#8 ∉ s.operand →
    ∃ t, exec .bccchk s = .next t ∧ Raises s t .missingEtx) ∧
  (∀ (s : State) (e : Nat), s.operand.head? = some 0x02#8 → first s.operand 0x03#8 = some e →
    let c := xorfold (slice s.operand 1 (e + 1))
    (s.operand.length ≤ e + 1 → ∃ t, exec .bccchk s = .next t ∧ Raises s t .bccAbsent) ∧
    (∀ b, s.operand[e + 1]? = some b → b ≠ c → ∃ t, exec .bccchk s = .next t ∧ Raises s t .bccMismatch) ∧
    (s.operand[e + 1]? = some c → ∃ t, exec .bccchk s = .next t ∧ t.resBcc = c ∧ t.Completed .ok ∧
      KeepsInput s t ∧ KeepsOut s t ∧ KeepsNum s t)) ∧
  encode .bccchk = 0x00000007#32 ∧
  opBccchk (requestFrame (commandBytes exampleCommand)) = .ok { bcc := some 0x42#8 }

/-- R72: BCCCHK accepts the frame BUILD makes of an operand without ETX; of one with an ETX it checks only up to the
embedded one, and fails unless the next byte happens to match. -/
def Obligations.BccchkAcceptsBuiltFrames : Prop :=
  ∀ s b u : State, s.inLen.toNat + 3 ≤ Config.nIn → exec .build s = .next b → u.operand = b.outBytes →
    (0x03#8 ∉ s.operand → ∃ t, exec .bccchk u = .next t ∧ t.err = .ok ∧ t.resBcc = xorfold (s.operand ++ [0x03#8])) ∧
    (∀ k, first s.operand 0x03#8 = some k →
      ∃ t, exec .bccchk u = .next t ∧
        t.err = if u.operand[k + 2]? = some (xorfold (s.operand.take (k + 1))) then .ok else .bccMismatch)

/-- R73: EXTRACT returns the bytes from offset 13 of a body of at least 16. -/
def Obligations.ExtractTakesTheDataSection : Prop :=
  (∀ s : State, s.operand.length < 16 → ∃ t, exec .extract s = .next t ∧ Raises s t .frameTooShort) ∧
  (∀ s : State, 16 ≤ s.operand.length →
    ∃ t, exec .extract s = .next t ∧ t.OutHolds (s.operand.drop 13) ∧ t.outLen.toNat = s.operand.length - 13 ∧
      t.Completed .ok ∧ KeepsInput s t ∧ KeepsBcc s t ∧ KeepsNum s t) ∧
  encode .extract = 0x00000004#32 ∧
  opExtract exampleBody = .ok { out := some exampleData } ∧ exampleData.length = 18

/-- R74: a data section of EXTRACT or PIPE has at least 3 bytes; EXTRACT of a body of 16 to N_IN - 2 bytes gives 3 to
N_IN - 15, and PIPE never more. -/
def Obligations.DataSectionsHaveThreeBytes : Prop :=
  (∀ s t : State, exec .extract s = .next t → t.err = .ok → 3 ≤ t.outLen.toNat) ∧
  (∀ s t : State, exec .pipe s = .next t → t.err = .ok → 3 ≤ t.outLen.toNat) ∧
  (∀ s : State, 16 ≤ s.operand.length → s.operand.length ≤ Config.nIn - 2 →
    ∃ t, exec .extract s = .next t ∧ 3 ≤ t.outLen.toNat ∧ t.outLen.toNat ≤ Config.nIn - 15) ∧
  (∀ s t : State, s.inLen.toNat ≤ Config.nIn → exec .pipe s = .next t → t.err = .ok →
    t.outLen.toNat ≤ Config.nIn - 15)

/-- R75: the 13 header bytes do not affect a result, and an STX after the first byte is data. -/
def Obligations.HeaderAndEmbeddedStxAreNotRead : Prop :=
  (∀ (h h' : Vector Byte 13) (d : List Byte) (s s' : State), s.operand = bodyOf h d → s'.operand = bodyOf h' d →
    ∃ t t', exec .extract s = .next t ∧ exec .extract s' = .next t' ∧ t.err = t'.err ∧
      (t.err = .ok → t.outBytes = t'.outBytes)) ∧
  (∀ (h h' : Vector Byte 13) (d tail : List Byte) (s s' : State), 0x03#8 ∉ h.toList → 0x03#8 ∉ h'.toList → 0x03#8 ∉ d →
    s.operand = responseFrame (bodyOf h d) ++ tail → s'.operand = responseFrame (bodyOf h' d) ++ tail →
    ∃ t t', exec .pipe s = .next t ∧ exec .pipe s' = .next t' ∧ t.err = t'.err ∧
      (t.err = .ok → t.outBytes = t'.outBytes ∧ t.resU = t'.resU ∧ t.resS = t'.resS)) ∧
  (∀ (b c : List Byte) (s : State), 0x03#8 ∉ b → 0x03#8 ∉ c → s.operand = responseFrame (b ++ [0x02#8] ++ c) →
    ∃ t, exec .validate s = .next t ∧ t.err = .ok ∧ t.outBytes = b ++ [0x02#8] ++ c)

/-- The bytes after the first ETX (a BCC, right or wrong, noise, a second frame) change nothing VALIDATE and PIPE
give. -/
def Obligations.TrailingBytesAreIgnored : Prop :=
  ∀ (i : Instr) (b tail tail' : List Byte) (s s' : State), (i = .validate ∨ i = .pipe) → 0x03#8 ∉ b →
    s.operand = responseFrame b ++ tail → s'.operand = responseFrame b ++ tail' →
    ∃ t t', exec i s = .next t ∧ exec i s' = .next t' ∧ t.err = t'.err ∧
      (t.err = .ok → t.outBytes = t'.outBytes) ∧
      (t.err = .ok → i = .pipe → t.resU = t'.resU ∧ t.resS = t'.resS)

/-! ## Decoder and pipeline -/

/-- R77: DECODE parses hexadecimal digits of either case, corrects the sign once, and fails on anything else. -/
def Obligations.DecodeReadsASignedValue : Prop :=
  (∀ s : State, (s.operand = [] ∨ ∃ b ∈ s.operand, ishex b = false) →
    ∃ t, exec .decode s = .next t ∧ Raises s t .notHex) ∧
  (∀ s : State, s.operand ≠ [] → (∀ b ∈ s.operand, ishex b = true) →
    ∃ t, exec .decode s = .next t ∧ t.resU = hexnat s.operand ∧
      t.resS = (if 32768 ≤ hexnat s.operand then (hexnat s.operand : Int) - 65536 else hexnat s.operand) ∧
      t.resU < 16 ^ s.operand.length ∧ t.Completed .ok ∧ KeepsInput s t ∧ KeepsOut s t ∧ KeepsBcc s t) ∧
  encode .decode = 0x00000005#32 ∧
  opDecode [0x46#8, 0x46#8, 0x46#8, 0x36#8] = .ok { num := some (65526, -10) } ∧
  opDecode [0x66#8, 0x66#8, 0x66#8, 0x36#8] = .ok { num := some (65526, -10) } ∧
  opDecode [0x30#8, 0x30#8, 0x30#8, 0x32#8] = .ok { num := some (2, 2) } ∧
  tc 32767 = 32767 ∧ tc 32768 = -32768 ∧ tc 65535 = -1 ∧ decodedReading (-10) = -1 ∧ decodedReading 2 = 1 / 5 ∧
  opDecode exampleData = .ok { num := some (65526, -10) }

/-- R79: the correction is applied once to the whole parsed value; nothing is reduced modulo 2^16. -/
def Obligations.WideValuesAreNotReduced : Prop :=
  (∀ s : State, (∀ b ∈ s.operand, ishex b = true) → 65536 ≤ hexnat s.operand →
    ∃ t, exec .decode s = .next t ∧ t.err = .ok ∧ t.resU = hexnat s.operand ∧
      t.resS = (hexnat s.operand : Int) - 65536 ∧ 0 ≤ t.resS) ∧
  opDecode [0x31#8, 0x30#8, 0x30#8, 0x30#8, 0x30#8] = .ok { num := some (65536, 0) } ∧
  opDecode [0x31#8, 0x46#8, 0x46#8, 0x46#8, 0x46#8] = .ok { num := some (131071, 65535) } ∧
  opDecode [0x46#8, 0x46#8, 0x46#8, 0x46#8, 0x46#8, 0x46#8, 0x46#8, 0x36#8] = .ok { num := some (4294967286, 4294901750) }

/-- R80: PIPE runs the three stages in one step, reports the first failing stage's error, and commits all or none. -/
def Obligations.PipeRunsTheWholePipeline : Prop :=
  (∀ s : State, s.operand.head? ≠ some 0x02#8 → ∃ t, exec .pipe s = .next t ∧ Raises s t .missingStx) ∧
  (∀ s : State, s.operand.head? = some 0x02#8 → 0x03#8 ∉ s.operand →
    ∃ t, exec .pipe s = .next t ∧ Raises s t .missingEtx) ∧
  (∀ (s : State) (e : Nat), s.operand.head? = some 0x02#8 → first s.operand 0x03#8 = some e →
    let body := slice s.operand 1 e
    let d := body.drop 13
    (body.length < 16 → ∃ t, exec .pipe s = .next t ∧ Raises s t .frameTooShort) ∧
    (16 ≤ body.length → (∃ b ∈ d, ishex b = false) → ∃ t, exec .pipe s = .next t ∧ Raises s t .notHex) ∧
    (16 ≤ body.length → (∀ b ∈ d, ishex b = true) → ∃ t, exec .pipe s = .next t ∧ t.OutHolds d ∧
      t.outLen.toNat = d.length ∧ t.resU = hexnat d ∧ t.resS = tc (hexnat d) ∧
      t.Completed .ok ∧ KeepsInput s t ∧ KeepsBcc s t)) ∧
  encode .pipe = 0x00000006#32 ∧
  opPipe (responseFrame exampleBody) = .ok { out := some exampleData, num := some (65526, -10) } ∧
  exampleData.length = 18 ∧ decodedReading (-10) = -1

/-- PIPE gives the same ERR, OUT, RES_U and RES_S as VALIDATE, EXTRACT and DECODE run one after another, each on what
the one before left in OUT, stopping at the first error. -/
def Obligations.PipeEqualsItsStages : Prop :=
  ∀ s p v : State, exec .pipe s = .next p → exec .validate s = .next v →
    (v.err ≠ .ok → p.err = v.err) ∧
    (v.err = .ok → ∀ s1 x : State, s1.operand = v.outBytes → exec .extract s1 = .next x →
      (x.err ≠ .ok → p.err = x.err) ∧
      (x.err = .ok → ∀ s2 d : State, s2.operand = x.outBytes → exec .decode s2 = .next d →
        p.err = d.err ∧
        (d.err = .ok → p.resU = d.resU ∧ p.resS = d.resS ∧ p.outBytes = x.outBytes ∧ p.outLen = x.outLen)))

/-- R85: for every sequence of hexadecimal digits the reading is tc(hexnat(d)) / 10 by exact division; with the source's
two worked values, and R83's. -/
def Obligations.ReadingIsExactTenth : Prop :=
  (∀ s : State, s.operand ≠ [] → (∀ b ∈ s.operand, ishex b = true) →
    ∃ t, exec .decode s = .next t ∧ decodedReading t.resS = (tc (hexnat s.operand) : ℚ) / 10) ∧
  decodedReading (tc (hexnat [0x46#8, 0x46#8, 0x46#8, 0x36#8])) = -1 ∧
  decodedReading (tc (hexnat [0x30#8, 0x30#8, 0x30#8, 0x32#8])) = 1 / 5

/-- R84: `render6` is a minus sign for a negative mantissa only, the decimal digits of |v| div 10, a point, the one digit
of |v| mod 10 and five zeros. `dec` writes the decimal digits: read back in base 10 they are the number, each is a digit,
most significant first, and there is no leading zero but in "0". With R84's four examples. -/
def Obligations.DecimalDigitsAreExact : Prop :=
  (∀ k : Nat,
    (dec k).foldl (fun a b => 10 * a + (b.toNat - 0x30)) 0 = k ∧
    (∀ b ∈ dec k, 0x30 ≤ b.toNat ∧ b.toNat ≤ 0x39) ∧ dec k ≠ [] ∧
    ((dec k).head? = some 0x30#8 → k = 0)) ∧
  dec 0 = [0x30#8] ∧
  (∀ v : Int, ∃ d : Byte, d.toNat = 0x30 + v.natAbs % 10 ∧
    render6 v = (if v < 0 then [0x2D#8] else []) ++ dec (v.natAbs / 10) ++ [0x2E#8] ++ [d] ++
      [0x30#8, 0x30#8, 0x30#8, 0x30#8, 0x30#8]) ∧
  render6 (-10) = [0x2D#8, 0x31#8, 0x2E#8, 0x30#8, 0x30#8, 0x30#8, 0x30#8, 0x30#8, 0x30#8] ∧
  render6 2 = [0x30#8, 0x2E#8, 0x32#8, 0x30#8, 0x30#8, 0x30#8, 0x30#8, 0x30#8] ∧
  render6 (-5) = [0x2D#8, 0x30#8, 0x2E#8, 0x35#8, 0x30#8, 0x30#8, 0x30#8, 0x30#8, 0x30#8] ∧
  render6 0 = [0x30#8, 0x2E#8, 0x30#8, 0x30#8, 0x30#8, 0x30#8, 0x30#8, 0x30#8]

/-! ## Errors -/

/-- R89: exactly the error values each operation can produce, and the numbers they are read as (R88's codes). -/
def Obligations.ErrorCodesOfEachOperation : Prop :=
  (∀ e, (∃ s t, exec .bcc s = .next t ∧ t.err = e) ↔ e ∈ [ErrCode.ok]) ∧
  (∀ e, (∃ s t, exec .build s = .next t ∧ t.err = e) ↔ e ∈ [ErrCode.ok]) ∧
  (∀ e, (∃ s t, exec .validate s = .next t ∧ t.err = e) ↔ e ∈ [ErrCode.ok, .missingStx, .missingEtx]) ∧
  (∀ e, (∃ s t, exec .extract s = .next t ∧ t.err = e) ↔ e ∈ [ErrCode.ok, .frameTooShort]) ∧
  (∀ e, (∃ s t, exec .decode s = .next t ∧ t.err = e) ↔ e ∈ [ErrCode.ok, .notHex]) ∧
  (∀ e, (∃ s t, exec .pipe s = .next t ∧ t.err = e) ↔
    e ∈ [ErrCode.ok, .missingStx, .missingEtx, .frameTooShort, .notHex]) ∧
  (∀ e, (∃ s t, exec .bccchk s = .next t ∧ t.err = e) ↔
    e ∈ [ErrCode.ok, .missingStx, .missingEtx, .bccAbsent, .bccMismatch]) ∧
  (∀ s : State, s.completeIllegal.err = .illegalOp) ∧
  [ErrCode.ok, .missingStx, .missingEtx, .frameTooShort, .notHex, .bccAbsent, .bccMismatch, .illegalOp].map
    ErrCode.code = [0, 1, 2, 3, 4, 5, 6, 7]

/-- R90: the first error in the order MissingSTX, MissingETX, FrameTooShort, NotHex (PIPE) and MissingSTX, MissingETX,
BccAbsent, BccMismatch (BCCCHK) is the one reported; IllegalOp before any operand byte is looked at. -/
def Obligations.ErrorPriority : Prop :=
  (∀ (s : State) (op : BitVec 4), s.nextTurn = .codec → s.busy = true → s.pendOp = some op →
    (op = 0#4 ∨ 8 ≤ op.toNat) → ∃ t, step s = .next t ∧ t.err = .illegalOp) ∧
  (∀ s : State, ∃ t, exec .validate s = .next t ∧
    t.err = (if s.operand.head? ≠ some 0x02#8 then .missingStx
      else if 0x03#8 ∈ s.operand then .ok else .missingEtx)) ∧
  (∀ s : State, ∃ t, exec .pipe s = .next t ∧
    t.err = (if s.operand.head? ≠ some 0x02#8 then .missingStx
      else match first s.operand 0x03#8 with
        | none => .missingEtx
        | some e =>
          if (slice s.operand 1 e).length < 16 then .frameTooShort
          else if ((slice s.operand 1 e).drop 13).all ishex then .ok else .notHex)) ∧
  (∀ s : State, ∃ t, exec .bccchk s = .next t ∧
    t.err = (if s.operand.head? ≠ some 0x02#8 then .missingStx
      else match first s.operand 0x03#8 with
        | none => .missingEtx
        | some e =>
          if s.operand.length ≤ e + 1 then .bccAbsent
          else if s.operand[e + 1]? = some (xorfold (slice s.operand 1 (e + 1))) then .ok else .bccMismatch)) ∧
  opPipe [0x41#8] = .err .missingStx ∧ opPipe [0x02#8, 0x5A#8, 0x5A#8, 0x03#8] = .err .frameTooShort

/-- R107: an operation that raises leaves OUT, OUT_LEN, RES_BCC, RES_U and RES_S as they were. -/
def Obligations.ResultsAreStaleAfterAnError : Prop :=
  ∀ (i : Instr) (s t : State), exec i s = .next t → t.err ≠ .ok → Raises s t t.err

/-- R91 and R19: every completion writes ERR with its outcome: OK where the operation's function of the operand
succeeds, the error it raises where it raises one, IllegalOp for an illegal OP, as the codes 0 to 7. Nothing else but
reset changes it, no read clears it, host writes to STATUS are ignored; STATUS bits 3:0 hold it while BUSY = 0. -/
def Obligations.ErrLifecycle : Prop :=
  State.reset.err.code = 0#4 ∧ (∀ e : ErrCode, e.code.toNat ≤ 7) ∧
  (∀ s t : State, step s = .next t → s.nextTurn = .host → t.err = s.err) ∧
  (∀ s t : State, step s = .next t → s.nextTurn = .codec → s.busy = false → t.err = s.err) ∧
  (∀ s t : State, step s = .next t → s.nextTurn = .rst → t.err = .ok) ∧
  (∀ (i : Instr) (s : State), ∃ e : ErrCode, ∀ s' : State, s'.operand = s.operand →
    ∃ t, exec i s' = .next t ∧ t.err = e) ∧
  (∀ (i : Instr) (s : State), ∃ r : OpResult,
    r = (match i with
      | .bcc => opBcc s.operand
      | .build => opBuild s.operand
      | .validate => opValidate s.operand
      | .extract => opExtract s.operand
      | .decode => opDecode s.operand
      | .pipe => opPipe s.operand
      | .bccchk => opBccchk s.operand) ∧
    exec i s = .next (s.complete r) ∧ (∀ w, r = .ok w → (s.complete r).err = .ok) ∧
    (∀ e, r = .err e → e ≠ .ok ∧ (s.complete r).err = e)) ∧
  (∀ (i : Instr) (s : State), s.nextTurn = .codec → s.busy = true → s.pendOp = some i.op →
    step s = exec i s.spendTurn) ∧
  (∀ (s : State) (op : BitVec 4), s.nextTurn = .codec → s.busy = true → s.pendOp = some op →
    (op = 0#4 ∨ 8 ≤ op.toNat) → ∃ t, step s = .next t ∧ t.err = .illegalOp) ∧
  [ErrCode.ok, .missingStx, .missingEtx, .frameTooShort, .notHex, .bccAbsent, .bccMismatch, .illegalOp].map
    ErrCode.code = [0, 1, 2, 3, 4, 5, 6, 7] ∧
  (∀ (s : State) (v : Word), hostWriteReg regStatus v s = .next s) ∧
  (∀ s : State, s.busy = false → s.statusRead.toNat = s.err.code.toNat)

/-! ## State and purity -/

/-- R32: an operation is a function of PEND_OP and the operand to an outcome, and the step applies that outcome. -/
def Obligations.OperationsArePure : Prop :=
  ∀ (i : Instr) (bytes : List Byte), ∃ r : OpResult, ∀ s : State, s.operand = bytes →
    exec i s = .next (s.complete r)

/-- R108: no operation writes IN, so the next one, of any kind, reads the same operand again. -/
def Obligations.OperandsAreNotForwarded : Prop :=
  ∀ (i : Instr) (s t : State), exec i s = .next t → t.operand = s.operand ∧ t.inLen = s.inLen ∧
    (∀ a, t.inBuf.read a = s.inBuf.read a) ∧
    ∀ j : Instr, ∃ t1 t2, exec j t = .next t1 ∧ exec j s = .next t2 ∧ t1.err = t2.err

/-- R48: while an operation is in flight no step changes its operand, so it is the one at the CTRL write. -/
def Obligations.OperandIsFixedWhileBusy : Prop :=
  (∀ (s t : State) (v : Word), hostWriteReg regCtrl v s = .next t → t.operand = s.operand) ∧
  (∀ s t : State, s.busy = true → step s = .next t → t.busy = true →
    t.operand = s.operand ∧ t.inLen = s.inLen ∧ ∀ a, t.inByte a = s.inByte a) ∧
  (∀ (i : Instr) (s t : State), exec i s = .next t → t.operand = s.operand)

/-- R18: a CTRL write at BUSY = 0 puts bits 3:0 in PEND_OP and sets BUSY; it is the only way to start an operation; a
read of CTRL gives 0. -/
def Obligations.OnlyCtrlWritesStartOperations : Prop :=
  (∀ (s : State) (v : Word), s.busy = false →
    ∃ t, hostWriteReg regCtrl v s = .next t ∧ t.pendOp = some (v.extractLsb' 0 4) ∧ t.busy = true ∧
      { t with pendOp := s.pendOp, busy := s.busy, draws := s.draws } = s) ∧
  (∀ (s : State) (v : Word), s.busy = true → hostWriteReg regCtrl v s = .fault .hostWriteWhileBusy) ∧
  (∀ s t : State, step s = .next t → s.busy = false → t.busy = true →
    ∃ v h, s.nextTurn = .host ∧ s.host.fetch = some (.wreg regCtrl v, h) ∧ t.pendOp = some (v.extractLsb' 0 4)) ∧
  (∀ s : State, hostReadReg regCtrl s = 0)

/-- R20: BUSY is 1 from the CTRL write that starts an operation until its completion: such a write sets it, nothing else
does, and only completion, with its outcome in the same step, or reset clears it. It is 0 after reset, its read is always
exact, and STATUS bits 31:5 read 0. -/
def Obligations.BusyBit : Prop :=
  (∀ (s : State) (v : Word), s.busy = false → ∃ t, hostWriteReg regCtrl v s = .next t ∧ t.busy = true) ∧
  (∀ s t : State, step s = .next t → s.busy = false → t.busy = true →
    s.nextTurn = .host ∧ ∃ v h, s.host.fetch = some (.wreg regCtrl v, h)) ∧
  (∀ s t : State, step s = .next t → s.busy = true → t.busy = false → s.nextTurn = .codec ∨ s.nextTurn = .rst) ∧
  (∀ s : State, s.nextTurn = .codec → s.busy = true → ∃ t, step s = .next t ∧ t.busy = false ∧
    ∀ i : Instr, s.pendOp = some i.op → exec i s.spendTurn = .next t) ∧
  (∀ s t : State, step s = .next t → s.nextTurn = .codec → t.busy = false) ∧
  State.reset.busy = false ∧
  (∀ s : State, s.statusRead.getLsbD 4 = s.busy ∧ ∀ k, 5 ≤ k → s.statusRead.getLsbD k = false)

/-! ## Host accesses -/

/-- R34: HostWriteReg. -/
def Obligations.HostRegisterWrites : Prop :=
  ∀ (s : State) (r : Nat) (v : Word),
    (s.busy = true → (r = 0 ∨ r = 2) → hostWriteReg r v s = .fault .hostWriteWhileBusy) ∧
    (s.busy = false → r = 0 → ∃ t, hostWriteReg r v s = .next t ∧ t.pendOp = some (opField v) ∧ t.busy = true ∧
      { t with pendOp := s.pendOp, busy := s.busy, draws := s.draws } = s) ∧
    (s.busy = false → r = 2 → v.toNat ≤ Config.nIn → ∃ t, hostWriteReg r v s = .next t ∧ t.inLen = v ∧
      { t with inLen := s.inLen, draws := s.draws } = s) ∧
    (s.busy = false → r = 2 → Config.nIn < v.toNat → hostWriteReg r v s = .next s) ∧
    (r ≠ 0 → r ≠ 2 → hostWriteReg r v s = .next s)

/-- R35: HostReadReg, by register number; RES_U is below 2^W_U and RES_S in the range of W_S bits, busy or not. -/
def Obligations.HostRegisterReads : Prop :=
  ∀ s : State,
    hostReadReg 0 s = 0 ∧
    (∃ e : BitVec 4, hostReadReg 1 s = (s.busy.toNat * 16 + e.toNat : Nat) ∧
      (s.busy = false → e = s.err.code) ∧ (s.busy = true → e = Config.freeErr s.draws)) ∧
    hostReadReg 2 s = s.inLen.toNat ∧
    (s.busy = false → hostReadReg 3 s = s.outLen.toNat ∧ hostReadReg 4 s = s.resBcc.toNat ∧
      hostReadReg 5 s = s.resU ∧ hostReadReg 6 s = s.resS) ∧
    (s.busy = true → hostReadReg 3 s = (Config.freeOutLen s.draws).toNat ∧
      (∃ w : Word, hostReadReg 4 s = w.toNat ∧ w.setWidth 8 = (Config.freeResBcc s.draws).setWidth 8) ∧
      hostReadReg 5 s = (Config.freeResU s.draws).toNat ∧ hostReadReg 6 s = (Config.freeResS s.draws).toInt) ∧
    (∀ r, 7 ≤ r → hostReadReg r s = 0) ∧
    (∀ r, hostExec (.rreg r) s = .next { s with host := { s.host with acc := hostReadReg r s } }) ∧
    (s.Inv → 0 ≤ hostReadReg 5 s ∧ hostReadReg 5 s < (2 : Int) ^ Config.wU ∧
      -(2 : Int) ^ (Config.wS - 1) ≤ hostReadReg 6 s ∧ hostReadReg 6 s < (2 : Int) ^ (Config.wS - 1))

/-- R36: HostWriteIN: a fault while busy, ignored out of range, else the byte and nothing else. -/
def Obligations.HostWritesToIn : Prop :=
  ∀ (s : State) (i : Nat) (b : Byte),
    (s.busy = true → hostWriteIn i b s = .fault .hostWriteWhileBusy) ∧
    (s.busy = false → Config.nIn ≤ i → hostWriteIn i b s = .next s) ∧
    (s.busy = false → i < Config.nIn → ∃ t, hostWriteIn i b s = .next t ∧ t.inBuf.read i = some b ∧
      t.inByte i = b ∧ (∀ a, a ≠ i → t.inBuf.read a = s.inBuf.read a ∧ t.inByte a = s.inByte a) ∧
      t.inLen = s.inLen ∧ { t with inBuf := s.inBuf, draws := s.draws } = s)

/-- R37: HostReadIN gives the last byte the host wrote there, busy or not (no step but another write of that byte or a
reset changes it), a free value if it wrote none since reset, 0x00 out of range, and has no side effect. -/
def Obligations.HostReadsOfIn : Prop :=
  (∀ (s t : State) (i : Nat) (b : Byte), i < Config.nIn → hostWriteIn i b s = .next t → hostReadIn i t = b) ∧
  (∀ (s t : State) (i : Nat), (s.inBuf.read i).isSome = true → step s = .next t → s.nextTurn ≠ .rst → (∀ b h, s.host.fetch ≠ some (.win i b, h)) →
    (∀ h, s.host.fetch ≠ some (.winAcc i, h)) → hostReadIn i t = hostReadIn i s) ∧
  (∀ (s : State) (i : Nat), i < Config.nIn → s.inBuf.read i = none → hostReadIn i s = Config.freeIn s.resets i) ∧
  (∀ (s : State) (i : Nat), Config.nIn ≤ i → hostReadIn i s = 0x00#8) ∧
  (∀ (s : State) (i : Nat) (b : Bool), hostReadIn i { s with busy := b } = hostReadIn i s) ∧
  (∀ (s : State) (i : Nat),
    hostExec (.rin i) s = .next { s with host := { s.host with acc := (hostReadIn i s).toNat } })

/-- R38: HostReadOUT: 0x00 out of range, free while busy and from OUT_LEN on, else the byte the last successful BUILD,
VALIDATE, EXTRACT or PIPE wrote, which no host step changes; no side effect; host writes to OUT are ignored. -/
def Obligations.HostReadsOfOut : Prop :=
  (∀ (s : State) (i : Nat), Config.nOut ≤ i → hostReadOut i s = 0x00#8) ∧
  (∀ (s : State) (i : Nat), i < Config.nOut → s.busy = true → hostReadOut i s = Config.freeOut s.draws i) ∧
  (∀ (s : State) (i : Nat) (b : Byte), i < Config.nOut → s.busy = false → i < s.outLen.toNat →
    s.outBuf.read i = some b → hostReadOut i s = b) ∧
  (∀ (s : State) (i : Nat), i < Config.nOut → s.busy = false → s.outLen.toNat ≤ i →
    hostReadOut i s = Config.freeOut s.draws i) ∧
  (∀ (j : Instr) (s t : State) (bs : List Byte) (i : Nat), s.inLen.toNat ≤ Config.nIn → exec j s = .next t →
    t.OutHolds bs → i < bs.length → i < Config.nOut → bs[i]? = some (hostReadOut i t)) ∧
  (∀ s t : State, step s = .next t → s.nextTurn = .host → KeepsOut s t) ∧
  (∀ (s : State) (i : Nat),
    hostExec (.rout i) s = .next { s with host := { s.host with acc := (hostReadOut i s).toNat } }) ∧
  (∀ (s : State) (i : Nat) (b : Byte), hostExec (.wout i b) s = .next s)

/-- R26: unmapped registers read 0 and ignore writes; read-only registers ignore writes, busy or not; reserved bits of
STATUS and CTRL read 0. -/
def Obligations.UnmappedAndReadOnlyRegisters : Prop :=
  (∀ (s : State) (r : Nat), 7 ≤ r → hostReadReg r s = 0) ∧
  (∀ (s : State) (r : Nat) (v : Word), (7 ≤ r ∨ r = 1 ∨ r = 3 ∨ r = 4 ∨ r = 5 ∨ r = 6) →
    hostWriteReg r v s = .next s) ∧
  (∀ s : State, hostReadReg 0 s = 0 ∧ 0 ≤ hostReadReg 1 s ∧ hostReadReg 1 s < 32)

/-- The side effects of host accesses (20_memory.md section 3): reads have no side effect and repeat, whatever the
host and the schedule do meanwhile without a write; a CTRL write is the one access with an effect beyond its target:
an IN_LEN or IN write changes its target alone, an OUT or other register write nothing; writing an IN byte twice is
idempotent; a second CTRL write faults at BUSY = 1 and starts another operation after completion. That reads of
unspecified values (of a busy block, of OUT from OUT_LEN on) repeat too is the model's choice (DEDUCED, logs 4 and 5)
and not the spec's plain word. -/
def Obligations.SideEffectsOfHostAccesses : Prop :=
  (∀ (s t : State) (i : HostInstr), ((∃ r, i = .rreg r) ∨ (∃ k, i = .rin k) ∨ ∃ k, i = .rout k) →
    hostExec i s = .next t → t = { s with host := { s.host with acc := t.host.acc } } ∧
      hostExec i t = .next t) ∧
  (∀ (s t u : State) (i : Nat) (b : Byte), hostWriteIn i b s = .next t → hostWriteIn i b t = .next u →
    { u with draws := t.draws } = t) ∧
  (∀ (s : State) (g : HostAgent) (ts : List Turn) (k : Nat),
    hostReadReg k { s with host := g, turns := ts } = hostReadReg k s ∧
    hostReadIn k { s with host := g, turns := ts } = hostReadIn k s ∧
    hostReadOut k { s with host := g, turns := ts } = hostReadOut k s) ∧
  (∀ (s t : State) (v w : Word), hostWriteReg regCtrl v s = .next t →
    hostWriteReg regCtrl w t = .fault .hostWriteWhileBusy) ∧
  (∀ (s : State) (v : Word), s.busy = false → ∃ t, hostWriteReg regCtrl v s = .next t ∧ t.busy = true) ∧
  (∀ (s t : State) (r : Nat) (v : Word), r ≠ regCtrl → hostWriteReg r v s = .next t →
    { t with inLen := s.inLen, draws := s.draws } = s ∧ (r ≠ regInLen → t = s)) ∧
  (∀ (s t : State) (i : Nat) (b : Byte), hostWriteIn i b s = .next t →
    { t with inBuf := s.inBuf, draws := s.draws } = s ∧ ∀ a, a ≠ i → t.inBuf.read a = s.inBuf.read a) ∧
  (∀ (s : State) (i : Nat) (b : Byte), hostExec (.wout i b) s = .next s)

/-! ## Hazards -/

/-- R105: a step faults exactly when the host writes CTRL, IN_LEN or IN (at any index, as R36 tests BUSY first, log 22)
while BUSY = 1, and a fault is never cleared; writes to read-only and unmapped registers while busy do not fault. -/
def Obligations.WriteWhileBusyFaults : Prop :=
  (∀ (s : State) (f : Fault), step s = .fault f ↔
    f = .hostWriteWhileBusy ∧ s.nextTurn = .host ∧ s.busy = true ∧
      ((∃ r v h, s.host.fetch = some (.wreg r v, h) ∧ (r = regCtrl ∨ r = regInLen)) ∨
        (∃ i b h, s.host.fetch = some (.win i b, h)) ∨ ∃ i h, s.host.fetch = some (.winAcc i, h))) ∧
  (∀ (s : State) (k m : Nat) (f : Fault), Host.Core.run Sys2Proof.core k s = .fault f →
    Host.Core.run Sys2Proof.core (k + m) s = .fault f)

/-- R106: what a read gives while BUSY = 1: free values, but BUSY, IN_LEN and IN exact. -/
def Obligations.ReadsWhileBusy : Prop :=
  ∀ s : State, s.busy = true →
    s.statusRead.getLsbD 4 = true ∧ s.statusRead.setWidth 4 = Config.freeErr s.draws ∧
    hostReadReg regInLen s = s.inLen.toNat ∧ (∀ i, i < Config.nIn → hostReadIn i s = s.inByte i) ∧
    hostReadReg regOutLen s = (Config.freeOutLen s.draws).toNat ∧
    (∃ w : Word, hostReadReg regResBcc s = w.toNat ∧ w.setWidth 8 = (Config.freeResBcc s.draws).setWidth 8) ∧
    hostReadReg regResU s = (Config.freeResU s.draws).toNat ∧
    hostReadReg regResS s = (Config.freeResS s.draws).toInt ∧
    (∀ i, i < Config.nOut → hostReadOut i s = Config.freeOut s.draws i)

/-- R109: OUT bytes at and beyond OUT_LEN are unspecified, also those an earlier longer result wrote. -/
def Obligations.OutBeyondItsLengthIsUnspecified : Prop :=
  (∀ (s : State) (i : Nat), s.busy = false → s.outLen.toNat ≤ i → i < Config.nOut →
    hostReadOut i s = Config.freeOut s.draws i) ∧
  (∀ (j : Instr) (s t : State), s.Inv → exec j s = .next t → ∀ a, t.outLen.toNat ≤ a → t.outBuf.read a = none)

/-- A started operation is over after finitely many steps: within one step more than the schedule has turns, BUSY is 0,
unless the host broke the protocol and the run faulted. That the CODEC moves once the schedule is used up is the
model's fair choice (log 7). -/
def Obligations.StartedOperationsEnd : Prop :=
  ∀ s : State, s.busy = true → (∀ a ∈ s.turns, a ≠ .secondHost) →
    ∃ k, k ≤ s.turns.length + 1 ∧
      ((∃ t : State, Host.Core.run Sys2Proof.core k s = .next t ∧ t.busy = false) ∨
        Host.Core.run Sys2Proof.core k s = .fault .hostWriteWhileBusy)

/-- An idle block keeps all its state: with BUSY = 0 and nothing for the host to do, steps change nothing (the default
schedule of log 7), and a CODEC turn with BUSY = 0 is spent without effect (log 7). -/
def Obligations.IdleBlockKeepsItsState : Prop :=
  (∀ (s : State) (k : Nat), s.busy = false → s.turns = [] → s.host.fetch = none →
    Host.Core.run Sys2Proof.core k s = .next s) ∧
  (∀ s : State, s.nextTurn = .codec → s.busy = false → step s = .next s.spendTurn)

/-- A second host is refused, by name. -/
def Obligations.SecondHostIsRefused : Prop :=
  ∀ s : State, (∃ r, step s = .refused r) ↔ s.nextTurn = .secondHost

/-! ## The host's program -/

/-- The host's control flow: BNZ, BEQ and HALT touch nothing of the block; which way they go: BNZ to its target exactly
when some bit, of any weight, is set in acc and in the mask (a negative integer's bits are its two's complement's, log 9);
BEQ when acc is the value. -/
def Obligations.HostControlFlow : Prop :=
  ∀ (s : State) (mask : Int) (imm : Int) (target : Nat),
    (∃ t p, hostExec (.bnz mask target) s = .next t ∧ { t with host := s.host } = s ∧
      t.host = { s.host with pc := p } ∧
      ((∃ k, s.host.acc.testBit k = true ∧ mask.testBit k = true) → p = target) ∧
      ((∀ k, s.host.acc.testBit k = true → mask.testBit k = false) → p = s.host.pc)) ∧
    (∃ t, hostExec (.beq imm target) s = .next t ∧ { t with host := s.host } = s ∧
      t.host = { s.host with pc := if s.host.acc = imm then target else s.host.pc }) ∧
    (∃ t, hostExec .halt s = .next t ∧ { t with host := s.host } = s ∧
      t.host = { s.host with halted := true } ∧ (t.host.queue = [] → t.host.fetch = none))

/-- WAIT, assembled at a place: two host turns later the host is back at it if BUSY = 1 and past it if BUSY = 0, whatever
ERR reads as meanwhile. -/
def Obligations.WaitLoopsWhileBusy : Prop :=
  ∀ (s : State) (base : Nat), s.host.queue = [] → s.host.halted = false → s.host.pc = base →
    s.host.prog[base]? = some (.rreg regStatus) → s.host.prog[base + 1]? = some (.bnz 0x10 base) →
    ∃ t u, hostTurn s = .next t ∧ hostTurn t = .next u ∧
      u.host.pc = (if s.busy then base else base + 2) ∧ { u with host := s.host } = s

/-- MOVOI, fetched with BUSY = 0 and no turns left (the model's default schedule, log 7; one queued access a step, log 10):
2n + 2 steps later, n = OUT_LEN, the bytes of OUT are in IN as far as IN goes and the rest of IN is as it was. If n <= N_IN,
IN_LEN is n and the operand is the result; if n > N_IN, the final write is ignored and IN_LEN keeps its old value. The
results are as they were. -/
def Obligations.MovoiCopiesOutToIn : Prop :=
  ∀ (s : State) (h : HostAgent), s.Inv → s.busy = false → s.turns = [] → s.host.queue = [] →
    s.host.fetch = some (.movoi, h) →
    ∃ t : State, Host.Core.run Sys2Proof.core (2 * s.outLen.toNat + 2) s = .next t ∧
      (∀ i, i < s.outLen.toNat → i < Config.nIn → t.inBuf.read i = some (s.outByte i)) ∧
      (∀ i, s.outLen.toNat ≤ i ∨ Config.nIn ≤ i → t.inBuf.read i = s.inBuf.read i) ∧
      (s.outLen.toNat ≤ Config.nIn → t.inLen = s.outLen ∧ t.operand = s.outBytes) ∧
      (Config.nIn < s.outLen.toNat → t.inLen = s.inLen) ∧
      t.outBytes = s.outBytes ∧ KeepsOut s t ∧ KeepsBcc s t ∧
      KeepsNum s t ∧ t.err = s.err ∧ t.busy = false ∧ t.host.queue = [] ∧ t.host.pc = h.pc
end

