-- ==== Sys2Proof/Laws/Buffers.lean ====
section
/-! SUPPORT. The buffers: reading after writing, the canonical form, the listed range (R10, R36, R37). -/

namespace Sys2Proof.Machine

@[simp] theorem Memory.read_nil (a : Nat) : Memory.read [] a = none := rfl

theorem Memory.read_cons (k : Nat) (v : Byte) (m : Memory) (a : Nat) :
    Memory.read ((k, v) :: m) a = if k = a then some v else Memory.read m a := rfl

@[simp] theorem Memory.read_write_same (m : Memory) (a : Nat) (b : Byte) :
    (Memory.write m a b).read a = some b := by
  induction m with
  | nil => simp [Memory.write, Memory.read]
  | cons c m ih =>
    obtain ⟨k, v⟩ := c
    simp only [Memory.write]
    split
    · simp [Memory.read]
    · split
      · simp [Memory.read]
      · rename_i h1 h2
        simp [Memory.read, ih, Ne.symm h2]

theorem Memory.read_write_other (m : Memory) {a a' : Nat} (b : Byte) (h : a' ≠ a) :
    (Memory.write m a b).read a' = m.read a' := by
  induction m with
  | nil => simp [Memory.write, Memory.read, h.symm]
  | cons c m ih =>
    obtain ⟨k, v⟩ := c
    simp only [Memory.write]
    split
    · simp [Memory.read, h.symm]
    · split
      · rename_i h1 h2
        simp [Memory.read, ← h2, h.symm]
      · simp [Memory.read, ih]

/-- The canonical form of a listing with a first entry: the rest is canonical and lies above it. -/
theorem Memory.wf_cons_iff (k : Nat) (v : Byte) (m : Memory) :
    Memory.wf ((k, v) :: m) = true ↔ (∀ c ∈ m, k < c.1) ∧ m.wf = true := by
  induction m generalizing k v with
  | nil => simp [Memory.wf]
  | cons c m ih =>
    obtain ⟨k', v'⟩ := c
    simp only [Memory.wf, Bool.and_eq_true, decide_eq_true_eq, ih, List.mem_cons, forall_eq_or_imp]
    constructor
    · rintro ⟨hk, hm, hw⟩
      exact ⟨⟨hk, fun c hc => hk.trans (hm c hc)⟩, hm, hw⟩
    · rintro ⟨⟨hk, -⟩, hm, hw⟩
      exact ⟨hk, hm, hw⟩

theorem Memory.mem_write {m : Memory} {a : Nat} {b : Byte} {c : Host.Cell} (h : c ∈ Memory.write m a b) :
    c = (a, b) ∨ c ∈ m := by
  induction m with
  | nil => simpa [Memory.write] using h
  | cons d m ih =>
    obtain ⟨k, v⟩ := d
    simp only [Memory.write] at h
    split at h
    · simpa using h
    · split at h
      · have := List.mem_cons.1 h
        simp only [List.mem_cons]; tauto
      · have := List.mem_cons.1 h
        simp only [List.mem_cons]; tauto

/-- A write keeps the canonical form. -/
theorem Memory.wf_write {m : Memory} (a : Nat) (b : Byte) (h : m.wf = true) : (Memory.write m a b).wf = true := by
  induction m with
  | nil => rfl
  | cons c m ih =>
    obtain ⟨k, v⟩ := c
    rw [Memory.wf_cons_iff] at h
    simp only [Memory.write]
    split
    · rename_i hlt
      rw [Memory.wf_cons_iff, Memory.wf_cons_iff]
      exact ⟨by rintro c (_ | ⟨_, hc⟩) <;> [exact hlt; exact hlt.trans (h.1 _ hc)], h⟩
    · split
      · rename_i heq
        rw [Memory.wf_cons_iff, heq]
        exact h
      · rw [Memory.wf_cons_iff]
        refine ⟨fun c hc => ?_, ih h.2⟩
        rcases Memory.mem_write hc with rfl | hc
        · dsimp only; omega
        · exact h.1 c hc

theorem Memory.below_write {m : Memory} {n : Nat} (a : Nat) (b : Byte) (ha : a < n) (h : m.below n) :
    (Memory.write m a b).below n := fun c hc => by
  rcases Memory.mem_write hc with rfl | hc
  · exact ha
  · exact h c hc

/-! ## A buffer filled with a byte sequence -/

theorem Memory.read_ofBytes (k : Nat) (bs : List Byte) (a : Nat) :
    (Memory.ofBytes k bs).read a = if k ≤ a then bs[a - k]? else none := by
  induction bs generalizing k with
  | nil => simp [Memory.ofBytes]
  | cons b bs ih =>
    simp only [Memory.ofBytes, Memory.read_cons, ih]
    rcases Nat.lt_trichotomy k a with h | h | h
    · have h1 : a - k = (a - (k + 1)) + 1 := by omega
      simp [h.ne, h.le, Nat.succ_le_of_lt h, h1]
    · subst h; simp
    · simp [h.ne', Nat.not_le_of_lt h, show ¬ k + 1 ≤ a by omega]

@[simp] theorem Memory.read_ofBytes_zero (bs : List Byte) (a : Nat) : (Memory.ofBytes 0 bs).read a = bs[a]? := by
  simp [Memory.read_ofBytes]

theorem Memory.mem_ofBytes {k : Nat} {bs : List Byte} {c : Host.Cell} (h : c ∈ Memory.ofBytes k bs) :
    k ≤ c.1 ∧ c.1 < k + bs.length := by
  induction bs generalizing k with
  | nil => simp [Memory.ofBytes] at h
  | cons b bs ih =>
    rcases List.mem_cons.1 h with rfl | h
    · simp
    · have := ih h
      simp only [List.length_cons]; omega

/-- A buffer filled with a byte sequence is in canonical form. -/
theorem Memory.wf_ofBytes (k : Nat) (bs : List Byte) : (Memory.ofBytes k bs).wf = true := by
  induction bs generalizing k with
  | nil => rfl
  | cons b bs ih =>
    rw [Memory.ofBytes, Memory.wf_cons_iff]
    exact ⟨fun c hc => (Memory.mem_ofBytes hc).1, ih _⟩

/-- The memories of the reset state are in canonical form (R102). -/
theorem State.reset_wf : State.reset.inBuf.wf = true ∧ State.reset.outBuf.wf = true := ⟨rfl, rfl⟩

/-! ## The accessors of State -/

@[simp] theorem State.memRead_length (s : State) (i n : Nat) : (s.memRead i n).length = n := by
  simp [State.memRead]

@[simp] theorem State.operand_length (s : State) : s.operand.length = s.inLen.toNat := by
  simp [State.operand]

/-- The operand depends on IN_LEN, on what IN holds and on the reset its unwritten bytes date from. -/
theorem State.operand_congr {s t : State} (h1 : t.inLen = s.inLen) (h2 : t.inBuf = s.inBuf)
    (h3 : t.resets = s.resets) : t.operand = s.operand := by
  simp only [State.operand, State.memRead, State.inByte, h1, h2, h3]

theorem State.operand_getElem? (s : State) (k : Nat) :
    s.operand[k]? = if k < s.inLen.toNat then some (s.inByte k) else none := by
  simp only [State.operand, State.memRead, List.getElem?_map, Nat.zero_add]
  by_cases h : k < s.inLen.toNat
  · simp [h]
  · simp [h]

@[simp] theorem State.outBytes_length (s : State) : s.outBytes.length = s.outLen.toNat := by
  simp [State.outBytes]

/-- OUT as just written by an operation is what the host reads from it. -/
theorem State.outBytes_of_ofBytes {t : State} {bs : List Byte} (h1 : t.outBuf = Memory.ofBytes 0 bs)
    (h2 : t.outLen.toNat = bs.length) : t.outBytes = bs := by
  apply List.ext_getElem
  · simp [h2]
  · intro k hk hk'
    simp only [State.outBytes, List.getElem_map, List.getElem_range, State.outByte, h1, h2, hk', if_true,
      Memory.read_ofBytes_zero, List.getElem?_eq_getElem hk', Option.getD_some]

theorem State.outHolds_of_ofBytes {t : State} {bs : List Byte} (h1 : t.outBuf = Memory.ofBytes 0 bs)
    (h2 : t.outLen.toNat = bs.length) : t.OutHolds bs :=
  ⟨State.outBytes_of_ofBytes h1 h2, h2, fun a ha => by
    rw [h1, Memory.read_ofBytes_zero, List.getElem?_eq_none_iff]; exact ha⟩

end Sys2Proof.Machine
end

