-- ==== Sys2Proof/Laws/Config.lean ====
section
/-! SUPPORT. The bounds of the parameters (R7), without their definitions. -/

namespace Sys2Proof.Config

theorem nIn_ge : 21 ≤ nIn := by unfold nIn; omega

theorem nOut_eq : nOut = nIn + 3 := rfl

theorem nOut_lt : nOut < 2 ^ 32 := by
  have : nInAbove % (2 ^ 32 - 24) < 2 ^ 32 - 24 := Nat.mod_lt _ (by norm_num)
  unfold nOut nIn
  omega

theorem wU_eq : wU = 4 * nIn := rfl

theorem wS_eq : wS = wU + 1 := rfl

end Sys2Proof.Config
end

