-- ==== Sys2Proof/Laws/Operands.lean ====
section
/-! SUPPORT. The helper functions of R12 and the stage functions built on them. -/

namespace Sys2Proof.Machine

/-! ## xorfold -/

@[simp] theorem xorfold_nil : xorfold [] = 0#8 := rfl

theorem xorfold_append_singleton (s : List Byte) (b : Byte) : xorfold (s ++ [b]) = xorfold s ^^^ b := by
  simp [xorfold, List.foldl_append]

theorem xorfold_append (s t : List Byte) : xorfold (s ++ t) = xorfold s ^^^ xorfold t := by
  induction t using List.reverseRecOn with
  | nil => simp
  | append_singleton t b ih =>
    rw [← List.append_assoc, xorfold_append_singleton, xorfold_append_singleton, ih, BitVec.xor_assoc]

theorem buildBcc_eq (s : List Byte) : buildBcc s = xorfold s ^^^ 0x03#8 := xorfold_append_singleton s _

/-! ## slice -/

@[simp] theorem slice_length (s : List Byte) (a b : Nat) : (slice s a b).length = min (b - a) (s.length - a) := by
  simp [slice]

theorem slice_to_end (s : List Byte) (a : Nat) : slice s a s.length = s.drop a :=
  List.take_of_length_le (by simp)

/-! ## first -/

theorem first_append_of_not_mem {s : List Byte} {v : Byte} (h : v ∉ s) (t : List Byte) :
    first (s ++ t) v = (first t v).map (· + s.length) := by
  induction s with
  | nil => simp
  | cons b s ih =>
    have hb : b ≠ v := fun e => h (e ▸ List.mem_cons_self)
    simp only [List.cons_append, first, hb, if_false, ih fun h' => h (List.mem_cons_of_mem _ h'),
      Option.map_map, List.length_cons]
    congr 1

theorem first_eq_none_iff {s : List Byte} {v : Byte} : first s v = none ↔ v ∉ s := by
  induction s with
  | nil => simp [first]
  | cons b s ih =>
    by_cases h : b = v
    · simp [first, h]
    · simp [first, h, ih, Ne.symm h]

/-- What `first` answers: the value stands there, and nowhere before. -/
theorem first_eq_some_iff {s : List Byte} {v : Byte} {e : Nat} :
    first s v = some e ↔ s[e]? = some v ∧ v ∉ s.take e := by
  induction s generalizing e with
  | nil => simp [first]
  | cons b s ih =>
    by_cases h : b = v
    · subst h
      cases e <;> simp [first]
    · cases e with
      | zero => simp [first, h]
      | succ e => simp [first, h, ih, Ne.symm h]

theorem first_lt_length {s : List Byte} {v : Byte} {e : Nat} (h : first s v = some e) : e < s.length :=
  (List.getElem?_eq_some_iff.1 (first_eq_some_iff.1 h).1).1

/-! ## hexnat and tc -/

theorem ishex_hexval_lt (b : Byte) : hexval b < 16 := by
  unfold hexval; split_ifs <;> omega

theorem hexnat_lt (s : List Byte) : hexnat s < 16 ^ s.length := by
  induction s with
  | nil => simp [hexnat]
  | cons b s ih =>
    have := Nat.mul_le_mul_right (16 ^ s.length) (Nat.le_of_lt_succ (ishex_hexval_lt b))
    simp only [hexnat, List.length_cons, pow_succ]
    omega

theorem tc_eq (u : Nat) : tc u = if 32768 ≤ u then (u : Int) - 65536 else u := rfl

/-! ## Frames -/

/-- The boundary check answers MissingSTX, MissingETX, or the index of the first ETX, in that order (R69). -/
theorem frameEnd_eq (s : List Byte) :
    frameEnd s = if s.head? ≠ some 0x02#8 then .error .missingStx
      else match first s 0x03#8 with
        | none => .error .missingEtx
        | some e => .ok e := by
  cases s with
  | nil => rfl
  | cons b s =>
    simp only [frameEnd, List.head?_cons, ne_eq, Option.some.injEq]
    rfl

theorem frameEnd_missingStx {s : List Byte} (h : s.head? ≠ some 0x02#8) : frameEnd s = .error .missingStx := by
  rw [frameEnd_eq, if_pos h]

theorem frameEnd_missingEtx {s : List Byte} (h : s.head? = some 0x02#8) (h' : 0x03#8 ∉ s) :
    frameEnd s = .error .missingEtx := by
  rw [frameEnd_eq, if_neg (by simpa using h), first_eq_none_iff.2 h']

theorem frameEnd_ok {s : List Byte} {e : Nat} (h : s.head? = some 0x02#8) (h' : first s 0x03#8 = some e) :
    frameEnd s = .ok e := by
  rw [frameEnd_eq, if_neg (by simpa using h), h']

/-- The first ETX of a frame stands after its STX. -/
theorem first_etx_pos {s : List Byte} {e : Nat} (h : s.head? = some 0x02#8) (h' : first s 0x03#8 = some e) : 1 ≤ e := by
  cases s with
  | nil => simp at h
  | cons b s =>
    obtain rfl : b = 0x02#8 := by simpa using h
    rw [first] at h'
    cases hf : first s 0x03#8 <;> simp_all
    omega

theorem dataSection_eq (s : List Byte) :
    dataSection s = if s.length < 16 then .error .frameTooShort else .ok (s.drop 13) := by
  rw [← slice_to_end]; rfl

end Sys2Proof.Machine
end

