-- ==== Sys2Proof/Laws/Exec.lean ====
section
/-! SUPPORT. The complete step (R43) and the operations through it: every operation is a function of its operand (R32),
its staged writes fit, and what it does not stage stays as it was. -/

namespace Sys2Proof.Machine

/-! ## The complete step -/

section
variable (s : State) (r : OpResult)

@[simp] theorem State.complete_busy : (s.complete r).busy = false := by cases r <;> rfl

@[simp] theorem State.complete_pendOp : (s.complete r).pendOp = none := by cases r <;> rfl

@[simp] theorem State.complete_draws : (s.complete r).draws = s.draws + 1 := by
  rcases r with ⟨_ | _, _ | _, _ | _⟩ | e <;> rfl

@[simp] theorem State.complete_inLen : (s.complete r).inLen = s.inLen := by
  rcases r with ⟨_ | _, _ | _, _ | _⟩ | e <;> rfl

@[simp] theorem State.complete_inBuf : (s.complete r).inBuf = s.inBuf := by
  rcases r with ⟨_ | _, _ | _, _ | _⟩ | e <;> rfl

@[simp] theorem State.complete_host : (s.complete r).host = s.host := by
  rcases r with ⟨_ | _, _ | _, _ | _⟩ | e <;> rfl

@[simp] theorem State.complete_turns : (s.complete r).turns = s.turns := by
  rcases r with ⟨_ | _, _ | _, _ | _⟩ | e <;> rfl

@[simp] theorem State.complete_resets : (s.complete r).resets = s.resets := by
  rcases r with ⟨_ | _, _ | _, _ | _⟩ | e <;> rfl

/-- No completion changes IN, IN_LEN, the host or the schedule (R108). -/
theorem State.complete_keepsInput : KeepsInput s (s.complete r) :=
  ⟨by simp, State.operand_congr (by simp) (by simp) (by simp), by simp, by simp [State.inByte], by simp, by simp,
    by simp⟩

/-- An error discards every staged write (R11). -/
theorem State.complete_err (e : ErrCode) : Raises s (s.complete (.err e)) e :=
  ⟨⟨rfl, rfl, rfl⟩, s.complete_keepsInput _, ⟨rfl, fun _ => rfl⟩, rfl, rfl, rfl⟩

variable (w : Writes)

@[simp] theorem State.complete_ok_err : (s.complete (.ok w)).err = .ok := rfl

theorem State.complete_ok_completed : (s.complete (.ok w)).Completed .ok := ⟨rfl, rfl, rfl⟩

/-- A staged result is what OUT and OUT_LEN hold after completion. -/
theorem State.complete_ok_out {bs : List Byte} (h : w.out = some bs) :
    (s.complete (.ok w)).outBuf = Memory.ofBytes 0 bs ∧
      (s.complete (.ok w)).outLen = BitVec.ofNat 32 bs.length := by
  rcases w with ⟨_ | _, _ | _, _ | _⟩ <;> cases h <;> exact ⟨rfl, rfl⟩

theorem State.complete_ok_outHolds {bs : List Byte} (h : w.out = some bs) (hl : bs.length < 2 ^ 32) :
    (s.complete (.ok w)).OutHolds bs := by
  have := s.complete_ok_out w h
  exact State.outHolds_of_ofBytes this.1 (by rw [this.2, BitVec.toNat_ofNat, Nat.mod_eq_of_lt hl])

/-- Without a staged result OUT and OUT_LEN stay. -/
theorem State.complete_ok_noOut (h : w.out = none) :
    (s.complete (.ok w)).outBuf = s.outBuf ∧ (s.complete (.ok w)).outLen = s.outLen := by
  rcases w with ⟨_ | _, _ | _, _ | _⟩ <;> cases h <;> exact ⟨rfl, rfl⟩

theorem State.complete_ok_keepsOut (h : w.out = none) : KeepsOut s (s.complete (.ok w)) := by
  have := s.complete_ok_noOut w h
  exact ⟨this.2, fun a => by rw [this.1]⟩

theorem State.complete_ok_bcc : (s.complete (.ok w)).resBcc = w.bcc.getD s.resBcc := by
  rcases w with ⟨_ | _, _ | _, _ | _⟩ <;> rfl

theorem State.complete_ok_num :
    (s.complete (.ok w)).resU = (w.num.getD (s.resU, s.resS)).1 ∧
      (s.complete (.ok w)).resS = (w.num.getD (s.resU, s.resS)).2 := by
  rcases w with ⟨_ | _, _ | _, _ | _⟩ <;> exact ⟨rfl, rfl⟩

end

/-! ## The operations -/

/-- OPERATION(op, s) of R51 for a legal OP. -/
def opOf : Instr → List Byte → OpResult
  | .bcc => opBcc
  | .build => opBuild
  | .validate => opValidate
  | .extract => opExtract
  | .decode => opDecode
  | .pipe => opPipe
  | .bccchk => opBccchk

/-- Every operation completes with its function of the operand (R32). -/
theorem exec_eq_complete (i : Instr) (s : State) : exec i s = .next (s.complete (opOf i s.operand)) := by
  cases i <;> rfl

theorem exec_inv {i : Instr} {s t : State} (h : exec i s = .next t) : t = s.complete (opOf i s.operand) := by
  rw [exec_eq_complete] at h
  exact (Host.Outcome.next.inj h).symm

theorem frameBody_missingStx {s : List Byte} (h : s.head? ≠ some 0x02#8) : frameBody s = .error .missingStx := by
  rw [frameBody, frameEnd_missingStx h]

theorem frameBody_missingEtx {s : List Byte} (h : s.head? = some 0x02#8) (h' : 0x03#8 ∉ s) :
    frameBody s = .error .missingEtx := by
  rw [frameBody, frameEnd_missingEtx h h']

theorem frameBody_ok {s : List Byte} {e : Nat} (h : s.head? = some 0x02#8) (h' : first s 0x03#8 = some e) :
    frameBody s = .ok (slice s 1 e) := by
  rw [frameBody, frameEnd_ok h h']

/-- A frame around a body without ETX, with any tail, gives that body back (R70, R76). -/
theorem frameBody_frame {b : List Byte} (hb : 0x03#8 ∉ b) (tail : List Byte) :
    frameBody ([0x02#8] ++ b ++ [0x03#8] ++ tail) = .ok b := by
  have hf : first ([0x02#8] ++ b ++ [0x03#8] ++ tail) 0x03#8 = some (b.length + 1) := by
    have h2 : 0x03#8 ∉ [0x02#8] ++ b := by simpa using hb
    rw [List.append_assoc, first_append_of_not_mem h2]
    simp [first]
  rw [frameBody_ok (by simp) hf]
  simp [slice]

theorem frameBody_length {s b : List Byte} (h : frameBody s = .ok b) : b.length + 2 ≤ s.length := by
  by_cases h1 : s.head? = some 0x02#8
  · cases h2 : first s 0x03#8 with
    | none => rw [frameBody_missingEtx h1 (first_eq_none_iff.1 h2)] at h; cases h
    | some e =>
      rw [frameBody_ok h1 h2] at h
      cases h
      have := first_lt_length h2
      have := first_etx_pos h1 h2
      rw [slice_length]
      omega
  · rw [frameBody_missingStx h1] at h; cases h

theorem dataSection_length {s d : List Byte} (h : dataSection s = .ok d) :
    d.length + 13 = s.length ∧ 16 ≤ s.length := by
  rw [dataSection_eq] at h
  split at h
  · cases h
  · cases h
    rw [List.length_drop]
    omega

/-- What a reading is (R77): the digits' value and its correction. -/
theorem reading_ok {s : List Byte} {uv : Nat × Int} (h : reading s = .ok uv) :
    s ≠ [] ∧ (∀ b ∈ s, ishex b = true) ∧ uv = (hexnat s, tc (hexnat s)) := by
  unfold reading at h
  split at h
  · cases h
  · split at h
    · rename_i h1 h2
      cases h
      exact ⟨h1, List.all_eq_true.1 h2, rfl⟩
    · cases h

theorem reading_of_hex {s : List Byte} (h : s ≠ []) (h' : ∀ b ∈ s, ishex b = true) :
    reading s = .ok (hexnat s, tc (hexnat s)) := by
  rw [reading, if_neg h, if_pos (List.all_eq_true.2 h')]

theorem reading_of_not_hex {s : List Byte} (h : s = [] ∨ ∃ b ∈ s, ishex b = false) :
    reading s = .error .notHex := by
  unfold reading
  split
  · rfl
  · rename_i h1
    obtain ⟨b, hb, hx⟩ := h.resolve_left h1
    rw [if_neg]
    intro hall
    rw [List.all_eq_true.1 hall b hb] at hx
    exact Bool.noConfusion hx

/-- What an operation stages, said once: a result in OUT at most 3 bytes longer than the operand, and a number that is
the value of at most n hexadecimal digits with its correction. -/
theorem opOf_writes {i : Instr} {s : List Byte} {w : Writes} (h : opOf i s = .ok w) :
    (∀ bs, w.out = some bs → bs.length ≤ s.length + 3) ∧
      (∀ uv, w.num = some uv → uv.1 < 16 ^ s.length ∧ uv.2 = tc uv.1) := by
  have hr : ∀ {d : List Byte} {uv}, d.length ≤ s.length → reading d = .ok uv →
      uv.1 < 16 ^ s.length ∧ uv.2 = tc uv.1 := by
    intro d uv hd h
    obtain ⟨-, -, rfl⟩ := reading_ok h
    exact ⟨(hexnat_lt d).trans_le (Nat.pow_le_pow_right (by norm_num) hd), rfl⟩
  cases i with
  | bcc => cases h; simp
  | build =>
    cases h
    refine ⟨fun bs hbs => ?_, by simp⟩
    cases hbs
    simp [requestFrame]
  | validate =>
    simp only [opOf, opValidate] at h
    split at h
    · cases h
    · rename_i body hb
      cases h
      refine ⟨fun bs hbs => ?_, by simp⟩
      cases hbs
      have := frameBody_length hb
      omega
  | extract =>
    simp only [opOf, opExtract] at h
    split at h
    · cases h
    · rename_i d hd
      cases h
      refine ⟨fun bs hbs => ?_, by simp⟩
      cases hbs
      have := dataSection_length hd
      omega
  | decode =>
    simp only [opOf, opDecode] at h
    split at h
    · cases h
    · rename_i uv huv
      cases h
      refine ⟨by simp, fun uv' h' => ?_⟩
      cases h'
      exact hr le_rfl huv
  | pipe =>
    simp only [opOf, opPipe] at h
    split at h
    · cases h
    · split at h
      · cases h
      · split at h
        · cases h
        · rename_i _ body hb _ d hd _ uv huv
          cases h
          have h1 := frameBody_length hb
          have h2 := dataSection_length hd
          refine ⟨fun bs hbs => ?_, fun uv' h' => ?_⟩
          · cases hbs; omega
          · cases h'; exact hr (by omega) huv
  | bccchk =>
    simp only [opOf, opBccchk] at h
    split at h
    · cases h
    · split at h
      · cases h
      · split at h
        · cases h
        · cases h; simp

end Sys2Proof.Machine
end

