-- ==== Sys2Proof/Laws/State.lean ====
section
/-! SUPPORT. What each named update of the state leaves in each field: one lemma per field per update, so that no later
proof unfolds a record update. -/

namespace Sys2Proof.Machine

variable (s : State)

/-! ## State.setOut -/

@[simp] theorem State.setOut_err (bs : List Byte) : (s.setOut bs).err = s.err := rfl
@[simp] theorem State.setOut_busy (bs : List Byte) : (s.setOut bs).busy = s.busy := rfl
@[simp] theorem State.setOut_inLen (bs : List Byte) : (s.setOut bs).inLen = s.inLen := rfl
@[simp] theorem State.setOut_outLen (bs : List Byte) : (s.setOut bs).outLen = BitVec.ofNat 32 bs.length := rfl
@[simp] theorem State.setOut_resBcc (bs : List Byte) : (s.setOut bs).resBcc = s.resBcc := rfl
@[simp] theorem State.setOut_resU (bs : List Byte) : (s.setOut bs).resU = s.resU := rfl
@[simp] theorem State.setOut_resS (bs : List Byte) : (s.setOut bs).resS = s.resS := rfl
@[simp] theorem State.setOut_inBuf (bs : List Byte) : (s.setOut bs).inBuf = s.inBuf := rfl
@[simp] theorem State.setOut_outBuf (bs : List Byte) : (s.setOut bs).outBuf = Memory.ofBytes 0 bs := rfl
@[simp] theorem State.setOut_pendOp (bs : List Byte) : (s.setOut bs).pendOp = s.pendOp := rfl
@[simp] theorem State.setOut_host (bs : List Byte) : (s.setOut bs).host = s.host := rfl
@[simp] theorem State.setOut_turns (bs : List Byte) : (s.setOut bs).turns = s.turns := rfl
@[simp] theorem State.setOut_draws (bs : List Byte) : (s.setOut bs).draws = s.draws := rfl
@[simp] theorem State.setOut_resets (bs : List Byte) : (s.setOut bs).resets = s.resets := rfl

/-! ## State.setBcc -/

@[simp] theorem State.setBcc_err (b : Byte) : (s.setBcc b).err = s.err := rfl
@[simp] theorem State.setBcc_busy (b : Byte) : (s.setBcc b).busy = s.busy := rfl
@[simp] theorem State.setBcc_inLen (b : Byte) : (s.setBcc b).inLen = s.inLen := rfl
@[simp] theorem State.setBcc_outLen (b : Byte) : (s.setBcc b).outLen = s.outLen := rfl
@[simp] theorem State.setBcc_resBcc (b : Byte) : (s.setBcc b).resBcc = b := rfl
@[simp] theorem State.setBcc_resU (b : Byte) : (s.setBcc b).resU = s.resU := rfl
@[simp] theorem State.setBcc_resS (b : Byte) : (s.setBcc b).resS = s.resS := rfl
@[simp] theorem State.setBcc_inBuf (b : Byte) : (s.setBcc b).inBuf = s.inBuf := rfl
@[simp] theorem State.setBcc_outBuf (b : Byte) : (s.setBcc b).outBuf = s.outBuf := rfl
@[simp] theorem State.setBcc_pendOp (b : Byte) : (s.setBcc b).pendOp = s.pendOp := rfl
@[simp] theorem State.setBcc_host (b : Byte) : (s.setBcc b).host = s.host := rfl
@[simp] theorem State.setBcc_turns (b : Byte) : (s.setBcc b).turns = s.turns := rfl
@[simp] theorem State.setBcc_draws (b : Byte) : (s.setBcc b).draws = s.draws := rfl
@[simp] theorem State.setBcc_resets (b : Byte) : (s.setBcc b).resets = s.resets := rfl

/-! ## State.setNum -/

@[simp] theorem State.setNum_err (u : Nat) (v : Int) : (s.setNum u v).err = s.err := rfl
@[simp] theorem State.setNum_busy (u : Nat) (v : Int) : (s.setNum u v).busy = s.busy := rfl
@[simp] theorem State.setNum_inLen (u : Nat) (v : Int) : (s.setNum u v).inLen = s.inLen := rfl
@[simp] theorem State.setNum_outLen (u : Nat) (v : Int) : (s.setNum u v).outLen = s.outLen := rfl
@[simp] theorem State.setNum_resBcc (u : Nat) (v : Int) : (s.setNum u v).resBcc = s.resBcc := rfl
@[simp] theorem State.setNum_resU (u : Nat) (v : Int) : (s.setNum u v).resU = u := rfl
@[simp] theorem State.setNum_resS (u : Nat) (v : Int) : (s.setNum u v).resS = v := rfl
@[simp] theorem State.setNum_inBuf (u : Nat) (v : Int) : (s.setNum u v).inBuf = s.inBuf := rfl
@[simp] theorem State.setNum_outBuf (u : Nat) (v : Int) : (s.setNum u v).outBuf = s.outBuf := rfl
@[simp] theorem State.setNum_pendOp (u : Nat) (v : Int) : (s.setNum u v).pendOp = s.pendOp := rfl
@[simp] theorem State.setNum_host (u : Nat) (v : Int) : (s.setNum u v).host = s.host := rfl
@[simp] theorem State.setNum_turns (u : Nat) (v : Int) : (s.setNum u v).turns = s.turns := rfl
@[simp] theorem State.setNum_draws (u : Nat) (v : Int) : (s.setNum u v).draws = s.draws := rfl
@[simp] theorem State.setNum_resets (u : Nat) (v : Int) : (s.setNum u v).resets = s.resets := rfl

/-! ## State.finish -/

@[simp] theorem State.finish_err (e : ErrCode) : (s.finish e).err = e := rfl
@[simp] theorem State.finish_busy (e : ErrCode) : (s.finish e).busy = false := rfl
@[simp] theorem State.finish_inLen (e : ErrCode) : (s.finish e).inLen = s.inLen := rfl
@[simp] theorem State.finish_outLen (e : ErrCode) : (s.finish e).outLen = s.outLen := rfl
@[simp] theorem State.finish_resBcc (e : ErrCode) : (s.finish e).resBcc = s.resBcc := rfl
@[simp] theorem State.finish_resU (e : ErrCode) : (s.finish e).resU = s.resU := rfl
@[simp] theorem State.finish_resS (e : ErrCode) : (s.finish e).resS = s.resS := rfl
@[simp] theorem State.finish_inBuf (e : ErrCode) : (s.finish e).inBuf = s.inBuf := rfl
@[simp] theorem State.finish_outBuf (e : ErrCode) : (s.finish e).outBuf = s.outBuf := rfl
@[simp] theorem State.finish_pendOp (e : ErrCode) : (s.finish e).pendOp = none := rfl
@[simp] theorem State.finish_host (e : ErrCode) : (s.finish e).host = s.host := rfl
@[simp] theorem State.finish_turns (e : ErrCode) : (s.finish e).turns = s.turns := rfl
@[simp] theorem State.finish_draws (e : ErrCode) : (s.finish e).draws = s.draws + 1 := rfl
@[simp] theorem State.finish_resets (e : ErrCode) : (s.finish e).resets = s.resets := rfl

/-! ## State.start -/

@[simp] theorem State.start_err (v : Word) : (s.start v).err = s.err := rfl
@[simp] theorem State.start_busy (v : Word) : (s.start v).busy = true := rfl
@[simp] theorem State.start_inLen (v : Word) : (s.start v).inLen = s.inLen := rfl
@[simp] theorem State.start_outLen (v : Word) : (s.start v).outLen = s.outLen := rfl
@[simp] theorem State.start_resBcc (v : Word) : (s.start v).resBcc = s.resBcc := rfl
@[simp] theorem State.start_resU (v : Word) : (s.start v).resU = s.resU := rfl
@[simp] theorem State.start_resS (v : Word) : (s.start v).resS = s.resS := rfl
@[simp] theorem State.start_inBuf (v : Word) : (s.start v).inBuf = s.inBuf := rfl
@[simp] theorem State.start_outBuf (v : Word) : (s.start v).outBuf = s.outBuf := rfl
@[simp] theorem State.start_pendOp (v : Word) : (s.start v).pendOp = some (opField v) := rfl
@[simp] theorem State.start_host (v : Word) : (s.start v).host = s.host := rfl
@[simp] theorem State.start_turns (v : Word) : (s.start v).turns = s.turns := rfl
@[simp] theorem State.start_draws (v : Word) : (s.start v).draws = s.draws + 1 := rfl
@[simp] theorem State.start_resets (v : Word) : (s.start v).resets = s.resets := rfl

/-! ## State.assertRst -/

@[simp] theorem State.assertRst_err : (s.assertRst).err = .ok := rfl
@[simp] theorem State.assertRst_busy : (s.assertRst).busy = false := rfl
@[simp] theorem State.assertRst_inLen : (s.assertRst).inLen = 0#32 := rfl
@[simp] theorem State.assertRst_outLen : (s.assertRst).outLen = 0#32 := rfl
@[simp] theorem State.assertRst_resBcc : (s.assertRst).resBcc = 0#8 := rfl
@[simp] theorem State.assertRst_resU : (s.assertRst).resU = 0 := rfl
@[simp] theorem State.assertRst_resS : (s.assertRst).resS = 0 := rfl
@[simp] theorem State.assertRst_inBuf : (s.assertRst).inBuf = [] := rfl
@[simp] theorem State.assertRst_outBuf : (s.assertRst).outBuf = [] := rfl
@[simp] theorem State.assertRst_pendOp : (s.assertRst).pendOp = none := rfl
@[simp] theorem State.assertRst_host : (s.assertRst).host = s.host := rfl
@[simp] theorem State.assertRst_turns : (s.assertRst).turns = s.turns := rfl
@[simp] theorem State.assertRst_draws : (s.assertRst).draws = s.draws + 1 := rfl
@[simp] theorem State.assertRst_resets : (s.assertRst).resets = s.resets + 1 := rfl

/-! ## State.setAcc -/

@[simp] theorem State.setAcc_err (v : Int) : (s.setAcc v).err = s.err := rfl
@[simp] theorem State.setAcc_busy (v : Int) : (s.setAcc v).busy = s.busy := rfl
@[simp] theorem State.setAcc_inLen (v : Int) : (s.setAcc v).inLen = s.inLen := rfl
@[simp] theorem State.setAcc_outLen (v : Int) : (s.setAcc v).outLen = s.outLen := rfl
@[simp] theorem State.setAcc_resBcc (v : Int) : (s.setAcc v).resBcc = s.resBcc := rfl
@[simp] theorem State.setAcc_resU (v : Int) : (s.setAcc v).resU = s.resU := rfl
@[simp] theorem State.setAcc_resS (v : Int) : (s.setAcc v).resS = s.resS := rfl
@[simp] theorem State.setAcc_inBuf (v : Int) : (s.setAcc v).inBuf = s.inBuf := rfl
@[simp] theorem State.setAcc_outBuf (v : Int) : (s.setAcc v).outBuf = s.outBuf := rfl
@[simp] theorem State.setAcc_pendOp (v : Int) : (s.setAcc v).pendOp = s.pendOp := rfl
@[simp] theorem State.setAcc_host (v : Int) : (s.setAcc v).host = { s.host with acc := v } := rfl
@[simp] theorem State.setAcc_turns (v : Int) : (s.setAcc v).turns = s.turns := rfl
@[simp] theorem State.setAcc_draws (v : Int) : (s.setAcc v).draws = s.draws := rfl
@[simp] theorem State.setAcc_resets (v : Int) : (s.setAcc v).resets = s.resets := rfl

/-! ## State.jump -/

@[simp] theorem State.jump_err (p : Nat) : (s.jump p).err = s.err := rfl
@[simp] theorem State.jump_busy (p : Nat) : (s.jump p).busy = s.busy := rfl
@[simp] theorem State.jump_inLen (p : Nat) : (s.jump p).inLen = s.inLen := rfl
@[simp] theorem State.jump_outLen (p : Nat) : (s.jump p).outLen = s.outLen := rfl
@[simp] theorem State.jump_resBcc (p : Nat) : (s.jump p).resBcc = s.resBcc := rfl
@[simp] theorem State.jump_resU (p : Nat) : (s.jump p).resU = s.resU := rfl
@[simp] theorem State.jump_resS (p : Nat) : (s.jump p).resS = s.resS := rfl
@[simp] theorem State.jump_inBuf (p : Nat) : (s.jump p).inBuf = s.inBuf := rfl
@[simp] theorem State.jump_outBuf (p : Nat) : (s.jump p).outBuf = s.outBuf := rfl
@[simp] theorem State.jump_pendOp (p : Nat) : (s.jump p).pendOp = s.pendOp := rfl
@[simp] theorem State.jump_host (p : Nat) : (s.jump p).host = { s.host with pc := p } := rfl
@[simp] theorem State.jump_turns (p : Nat) : (s.jump p).turns = s.turns := rfl
@[simp] theorem State.jump_draws (p : Nat) : (s.jump p).draws = s.draws := rfl
@[simp] theorem State.jump_resets (p : Nat) : (s.jump p).resets = s.resets := rfl

/-! ## State.spendTurn -/

@[simp] theorem State.spendTurn_err : (s.spendTurn).err = s.err := rfl
@[simp] theorem State.spendTurn_busy : (s.spendTurn).busy = s.busy := rfl
@[simp] theorem State.spendTurn_inLen : (s.spendTurn).inLen = s.inLen := rfl
@[simp] theorem State.spendTurn_outLen : (s.spendTurn).outLen = s.outLen := rfl
@[simp] theorem State.spendTurn_resBcc : (s.spendTurn).resBcc = s.resBcc := rfl
@[simp] theorem State.spendTurn_resU : (s.spendTurn).resU = s.resU := rfl
@[simp] theorem State.spendTurn_resS : (s.spendTurn).resS = s.resS := rfl
@[simp] theorem State.spendTurn_inBuf : (s.spendTurn).inBuf = s.inBuf := rfl
@[simp] theorem State.spendTurn_outBuf : (s.spendTurn).outBuf = s.outBuf := rfl
@[simp] theorem State.spendTurn_pendOp : (s.spendTurn).pendOp = s.pendOp := rfl
@[simp] theorem State.spendTurn_host : (s.spendTurn).host = s.host := rfl
@[simp] theorem State.spendTurn_turns : (s.spendTurn).turns = s.turns.tail := rfl
@[simp] theorem State.spendTurn_draws : (s.spendTurn).draws = s.draws := rfl
@[simp] theorem State.spendTurn_resets : (s.spendTurn).resets = s.resets := rfl

/-! ## State.load -/

@[simp] theorem State.load_err (p : List HostInstr) : (s.load p).err = s.err := rfl
@[simp] theorem State.load_busy (p : List HostInstr) : (s.load p).busy = s.busy := rfl
@[simp] theorem State.load_inLen (p : List HostInstr) : (s.load p).inLen = s.inLen := rfl
@[simp] theorem State.load_outLen (p : List HostInstr) : (s.load p).outLen = s.outLen := rfl
@[simp] theorem State.load_resBcc (p : List HostInstr) : (s.load p).resBcc = s.resBcc := rfl
@[simp] theorem State.load_resU (p : List HostInstr) : (s.load p).resU = s.resU := rfl
@[simp] theorem State.load_resS (p : List HostInstr) : (s.load p).resS = s.resS := rfl
@[simp] theorem State.load_inBuf (p : List HostInstr) : (s.load p).inBuf = s.inBuf := rfl
@[simp] theorem State.load_outBuf (p : List HostInstr) : (s.load p).outBuf = s.outBuf := rfl
@[simp] theorem State.load_pendOp (p : List HostInstr) : (s.load p).pendOp = s.pendOp := rfl
@[simp] theorem State.load_host (p : List HostInstr) : (s.load p).host = { s.host with prog := p, pc := 0, queue := [], halted := false } := rfl
@[simp] theorem State.load_turns (p : List HostInstr) : (s.load p).turns = s.turns := rfl
@[simp] theorem State.load_draws (p : List HostInstr) : (s.load p).draws = s.draws := rfl
@[simp] theorem State.load_resets (p : List HostInstr) : (s.load p).resets = s.resets := rfl

/-! ## State.withFetchWord -/

@[simp] theorem State.withFetchWord_err (nbits w : Nat) : (s.withFetchWord nbits w).err = s.err := rfl
@[simp] theorem State.withFetchWord_busy (nbits w : Nat) : (s.withFetchWord nbits w).busy = true := rfl
@[simp] theorem State.withFetchWord_inLen (nbits w : Nat) : (s.withFetchWord nbits w).inLen = s.inLen := rfl
@[simp] theorem State.withFetchWord_outLen (nbits w : Nat) : (s.withFetchWord nbits w).outLen = s.outLen := rfl
@[simp] theorem State.withFetchWord_resBcc (nbits w : Nat) : (s.withFetchWord nbits w).resBcc = s.resBcc := rfl
@[simp] theorem State.withFetchWord_resU (nbits w : Nat) : (s.withFetchWord nbits w).resU = s.resU := rfl
@[simp] theorem State.withFetchWord_resS (nbits w : Nat) : (s.withFetchWord nbits w).resS = s.resS := rfl
@[simp] theorem State.withFetchWord_inBuf (nbits w : Nat) : (s.withFetchWord nbits w).inBuf = s.inBuf := rfl
@[simp] theorem State.withFetchWord_outBuf (nbits w : Nat) : (s.withFetchWord nbits w).outBuf = s.outBuf := rfl
@[simp] theorem State.withFetchWord_pendOp (nbits w : Nat) : (s.withFetchWord nbits w).pendOp = some (opField (BitVec.ofNat 32 (w % 2 ^ nbits))) := rfl
@[simp] theorem State.withFetchWord_host (nbits w : Nat) : (s.withFetchWord nbits w).host = s.host := rfl
@[simp] theorem State.withFetchWord_turns (nbits w : Nat) : (s.withFetchWord nbits w).turns = .codec :: s.turns := rfl
@[simp] theorem State.withFetchWord_draws (nbits w : Nat) : (s.withFetchWord nbits w).draws = s.draws := rfl
@[simp] theorem State.withFetchWord_resets (nbits w : Nat) : (s.withFetchWord nbits w).resets = s.resets := rfl

end Sys2Proof.Machine
end

