-- ==== Sys2Proof/Laws/HostAgent.lean ====
section
/-! SUPPORT. What a host access, a host instruction and a host turn can do, said once each (R34 to R38, R60). -/

namespace Sys2Proof.Machine

/-- What HostWriteReg can do when it does not fault (R34): accept a command, set IN_LEN, or nothing. -/
theorem hostWriteReg_cases {r : Nat} {v : Word} {s t : State} (h : hostWriteReg r v s = .next t) :
    (r = regCtrl ∧ s.busy = false ∧ t = s.start v) ∨
    (r = regInLen ∧ s.busy = false ∧ v.toNat ≤ Config.nIn ∧ t = { s with inLen := v, draws := s.draws + 1 }) ∨
    t = s := by
  unfold hostWriteReg at h
  split at h
  · cases h
  · rename_i hb
    split at h
    · rename_i hr
      exact .inl ⟨hr, by simpa [hr] using hb, (Host.Outcome.next.inj h).symm⟩
    · split at h
      · rename_i _ hr
        exact .inr (.inl ⟨hr.1, by simpa [hr.1] using hb, hr.2, (Host.Outcome.next.inj h).symm⟩)
      · exact .inr (.inr (Host.Outcome.next.inj h).symm)

/-- What HostWriteIN can do when it does not fault (R36): write the byte, or nothing. -/
theorem hostWriteIn_cases {i : Nat} {b : Byte} {s t : State} (h : hostWriteIn i b s = .next t) :
    (s.busy = false ∧ i < Config.nIn ∧ t = { s with inBuf := s.inBuf.write i b, draws := s.draws + 1 }) ∨ t = s := by
  unfold hostWriteIn at h
  split at h
  · cases h
  · rename_i hb
    split at h
    · rename_i hi
      exact .inl ⟨by simpa using hb, hi, (Host.Outcome.next.inj h).symm⟩
    · exact .inr (Host.Outcome.next.inj h).symm

/-- `intAnd` takes the bits the two integers have in common. -/
theorem intAnd_testBit (a b : Int) (k : Nat) : (intAnd a b).testBit k = (a.testBit k && b.testBit k) := by
  cases a <;> cases b <;> simp only [intAnd, Int.testBit, Nat.testBit_and, Nat.testBit_xor, Nat.testBit_or] <;>
    cases Nat.testBit _ k <;> cases Nat.testBit _ k <;> rfl

/-- BNZ goes on exactly when acc and the mask have no bit in common. -/
theorem intAnd_eq_zero_iff (a b : Int) : intAnd a b = 0 ↔ ∀ k, (a.testBit k && b.testBit k) = false := by
  simp only [← intAnd_testBit]
  constructor
  · rintro h k
    rw [h]; exact Nat.zero_testBit k
  · intro h
    cases hc : intAnd a b with
    | ofNat n =>
      rw [hc] at h
      exact congrArg Int.ofNat (Nat.eq_of_testBit_eq fun k => (h k).trans (Nat.zero_testBit k).symm)
    | negSucc n =>
      rw [hc] at h
      have := h n
      simp [Int.testBit, Nat.testBit_lt_two_pow n.lt_two_pow_self] at this

/-- What a host instruction can do when it does not fault: change the host alone, accept a command, set IN_LEN, or
write an IN byte; the last three only with BUSY = 0. -/
theorem hostExec_cases {i : HostInstr} {s t : State} (h : hostExec i s = .next t) :
    (∃ g, t = { s with host := g }) ∨
    (∃ v, i = .wreg regCtrl v ∧ s.busy = false ∧ t = s.start v) ∨
    (∃ v : Word, s.busy = false ∧ v.toNat ≤ Config.nIn ∧ t = { s with inLen := v, draws := s.draws + 1 }) ∨
    (∃ k b, s.busy = false ∧ k < Config.nIn ∧ t = { s with inBuf := s.inBuf.write k b, draws := s.draws + 1 }) := by
  cases i with
  | wreg r v =>
    rcases hostWriteReg_cases h with ⟨rfl, h'⟩ | ⟨-, h'⟩ | rfl
    · exact .inr (.inl ⟨v, rfl, h'⟩)
    · exact .inr (.inr (.inl ⟨v, h'⟩))
    · exact .inl ⟨_, rfl⟩
  | win k b | winAcc k =>
    rcases hostWriteIn_cases h with h' | rfl
    · exact .inr (.inr (.inr ⟨k, _, h'⟩))
    · exact .inl ⟨_, rfl⟩
  | wout k b => exact .inl ⟨s.host, (Host.Outcome.next.inj h).symm⟩
  | rreg r => exact .inl ⟨_, (Host.Outcome.next.inj h).symm⟩
  | rin k => exact .inl ⟨_, (Host.Outcome.next.inj h).symm⟩
  | rout k => exact .inl ⟨_, (Host.Outcome.next.inj h).symm⟩
  | bnz m k =>
    refine .inl ?_
    have := Host.Outcome.next.inj h
    split at this
    · exact ⟨s.host, this.symm⟩
    · exact ⟨_, this.symm⟩
  | beq m k =>
    refine .inl ?_
    have := Host.Outcome.next.inj h
    split at this
    · exact ⟨_, this.symm⟩
    · exact ⟨s.host, this.symm⟩
  | movoi => exact .inl ⟨_, (Host.Outcome.next.inj h).symm⟩
  | halt => exact .inl ⟨_, (Host.Outcome.next.inj h).symm⟩

/-- When a host instruction faults: it writes CTRL, IN_LEN or IN while BUSY = 1 (R105). -/
theorem hostExec_fault_iff {i : HostInstr} {s : State} {f : Fault} :
    hostExec i s = .fault f ↔ f = .hostWriteWhileBusy ∧ s.busy = true ∧
      ((∃ r v, i = .wreg r v ∧ (r = regCtrl ∨ r = regInLen)) ∨ (∃ k b, i = .win k b) ∨ ∃ k, i = .winAcc k) := by
  have hin : ∀ k b, hostWriteIn k b s = .fault f ↔ f = .hostWriteWhileBusy ∧ s.busy = true := by
    intro k b
    unfold hostWriteIn
    cases s.busy <;> simp [eq_comm]
    split <;> simp
  cases i with
  | wreg r v =>
    by_cases hc : s.busy = true ∧ (r = regCtrl ∨ r = regInLen)
    · simp [hostExec, hostWriteReg, hc, eq_comm]
    · have : ∀ f, hostWriteReg r v s ≠ .fault f := by
        intro f
        rw [hostWriteReg, if_neg hc]
        split_ifs <;> simp
      simp only [hostExec, this, false_iff]
      rintro ⟨-, hb, ⟨r', v', he, hr⟩ | ⟨k, b, he⟩ | ⟨k, he⟩⟩ <;> cases he
      exact hc ⟨hb, hr⟩
  | win k b => simp [hostExec, hin]
  | winAcc k => simp [hostExec, hin]
  | _ => simp [hostExec, hostWriteOut]

/-- No host instruction is refused. -/
theorem hostExec_ne_refused (i : HostInstr) (s : State) (r : Refusal) : hostExec i s ≠ .refused r := by
  cases i <;> simp only [hostExec, hostWriteReg, hostWriteIn, hostWriteOut] <;> (try split_ifs) <;> simp

/-- What a host turn can do when it does not fault. -/
theorem hostTurn_cases {s t : State} (h : hostTurn s = .next t) :
    (∃ g, t = { s with host := g }) ∨
    (∃ v g, s.host.fetch = some (.wreg regCtrl v, g) ∧ s.busy = false ∧
      t = { s with host := g, pendOp := some (opField v), busy := true, draws := s.draws + 1 }) ∨
    (∃ (v : Word) (g : HostAgent), s.busy = false ∧ v.toNat ≤ Config.nIn ∧
      t = { s with host := g, inLen := v, draws := s.draws + 1 }) ∨
    (∃ k b g, s.busy = false ∧ k < Config.nIn ∧
      t = { s with host := g, inBuf := s.inBuf.write k b, draws := s.draws + 1 }) := by
  unfold hostTurn at h
  cases hf : s.host.fetch with
  | none =>
    rw [hf] at h
    exact .inl ⟨s.host, (Host.Outcome.next.inj h).symm⟩
  | some p =>
    obtain ⟨i, g⟩ := p
    rw [hf] at h
    rcases hostExec_cases h with ⟨g', h⟩ | ⟨v, rfl, hb, h⟩ | ⟨v, hb, hv, h⟩ | ⟨k, b, hb, hk, h⟩
    · exact .inl ⟨g', h⟩
    · exact .inr (.inl ⟨v, g, rfl, hb, h⟩)
    · exact .inr (.inr (.inl ⟨v, g, hb, hv, h⟩))
    · exact .inr (.inr (.inr ⟨k, b, g, hb, hk, h⟩))

end Sys2Proof.Machine
end

