-- ==== Sys2Proof/Laws/PerInstr.lean ====
section
/-! SUPPORT. Per operation: its row of the opcode table (R62, R63), its OP value and its command word (R49, R50). -/

namespace Sys2Proof.Laws.Encoding

/-- An operation is well formed, has a row of the opcode table whose pattern is its command word, its OP value selects
it, and its command word carries that OP value and is one software should write. -/
def Statement (i : Instr) : Prop :=
  i.wellFormed = true ∧ (⟨i, encode i, 0x0000000F#32⟩ : OpRow) ∈ opTable ∧ decodeOp i.op = .ok i ∧
    opField (encode i) = i.op ∧ canonicalCommand (encode i) = true

theorem bcc : Statement .bcc := by unfold Statement; decide

theorem build : Statement .build := by unfold Statement; decide

theorem validate : Statement .validate := by unfold Statement; decide

theorem extract : Statement .extract := by unfold Statement; decide

theorem decode : Statement .decode := by unfold Statement; decide

theorem pipe : Statement .pipe := by unfold Statement; decide

theorem bccchk : Statement .bccchk := by unfold Statement; decide

end Sys2Proof.Laws.Encoding
end

