-- ==== Sys2Proof/Laws/Poll.lean ====
section
/-! SUPPORT. What the host makes of the block's state in a poll cycle (R87), with BUSY = 0. -/

namespace Sys2Proof.Machine

/-- The bytes for the link are the result in OUT. -/
theorem linkWrite_eq_outBytes {s : State} (hb : s.busy = false) (hl : s.outLen.toNat ≤ Config.nOut) :
    linkWrite s = s.outBytes := by
  have hn : (hostReadReg regOutLen s).toNat = s.outLen.toNat := by
    simp [hostReadReg, hb, regStatus, regInLen, regOutLen]
  rw [linkWrite, State.outBytes, hn]
  refine List.map_congr_left fun i hi => ?_
  have := List.mem_range.1 hi
  simp [hostReadOut, hb, show ¬ Config.nOut ≤ i by omega]

/-- With BUSY = 0 bits 3:0 of STATUS are ERR's code. -/
theorem status_err {s : State} (hb : s.busy = false) : intAnd (hostReadReg regStatus s) 0x0F = s.err.code.toNat := by
  have h : hostReadReg regStatus s = ((statusWord false s.err.code).toNat : Int) := by
    simp [hostReadReg, State.statusRead, hb, regStatus]
  rw [h]
  cases s.err <;> decide

/-- The host publishes the rendered RES_S exactly when ERR = OK, and else reports ERR's code. -/
theorem pollOutcome_eq {s : State} (hb : s.busy = false) :
    pollOutcome s = if s.err = .ok then .publish (render6 s.resS) else .report s.err.code := by
  have hr : hostReadReg regResS s = s.resS := by
    simp [hostReadReg, hb, regStatus, regInLen, regOutLen, regResBcc, regResU, regResS]
  rw [pollOutcome, status_err hb, hr]
  cases s.err <;> rfl

end Sys2Proof.Machine
end

