-- ==== Sys2Proof/Laws/Step.lean ====
section
/-! SUPPORT. What one step can do, said once, and what each kind of step does to the invariant of Safety.lean. -/

namespace Sys2Proof.Machine

/-- Spending a turn changes the schedule alone. -/
@[simp] theorem State.spendTurn_operand (s : State) : s.spendTurn.operand = s.operand := rfl

/-- A CODEC turn with BUSY = 1 completes the operation in flight, or IllegalOp (R43, R51). -/
theorem step_codec_busy {s : State} (h1 : s.nextTurn = .codec) (h2 : s.busy = true) :
    ∃ r, step s = .next (s.spendTurn.complete r) ∧
      (r = .err .illegalOp ∨ ∃ i, s.codecWork = .run i ∧ r = opOf i s.operand) := by
  unfold step
  rw [h1]
  cases hw : s.codecWork with
  | idle =>
    simp only [State.codecWork, h2, if_true] at hw
    split at hw
    · split at hw <;> cases hw
    · cases hw
  | run i =>
    refine ⟨opOf i s.operand, ?_, .inr ⟨i, rfl, rfl⟩⟩
    simp only [exec_eq_complete, State.spendTurn_operand]
  | illegal => exact ⟨_, rfl, .inl rfl⟩

theorem step_codec_idle {s : State} (h1 : s.nextTurn = .codec) (h2 : s.busy = false) :
    step s = .next s.spendTurn := by
  unfold step
  simp [h1, State.codecWork, h2]

theorem step_host {s : State} (h1 : s.nextTurn = .host) : step s = hostTurn s.spendTurn := by
  unfold step; rw [h1]

theorem step_rst {s : State} (h1 : s.nextTurn = .rst) : step s = .next s.spendTurn.assertRst := by
  unfold step; rw [h1]

theorem step_secondHost {s : State} (h1 : s.nextTurn = .secondHost) : step s = .refused .secondHost := by
  unfold step; rw [h1]

/-- Everything a step that goes on can be. -/
theorem step_cases {s t : State} (h : step s = .next t) :
    (s.nextTurn = .host ∧ hostTurn s.spendTurn = .next t) ∨
    (s.nextTurn = .codec ∧ s.busy = false ∧ t = s.spendTurn) ∨
    (s.nextTurn = .codec ∧ s.busy = true ∧ ∃ r, t = s.spendTurn.complete r ∧
      (r = .err .illegalOp ∨ ∃ i, s.codecWork = .run i ∧ r = opOf i s.operand)) ∨
    (s.nextTurn = .rst ∧ t = s.spendTurn.assertRst) := by
  cases hn : s.nextTurn with
  | host => exact .inl ⟨rfl, (step_host hn).symm.trans h⟩
  | codec =>
    cases hb : s.busy with
    | false => exact .inr (.inl ⟨rfl, rfl, (Host.Outcome.next.inj ((step_codec_idle hn hb).symm.trans h)).symm⟩)
    | true =>
      obtain ⟨r, hr, hr'⟩ := step_codec_busy hn hb
      exact .inr (.inr (.inl ⟨rfl, rfl, r, (Host.Outcome.next.inj (hr.symm.trans h)).symm, hr'⟩))
  | rst => exact .inr (.inr (.inr ⟨rfl, (Host.Outcome.next.inj ((step_rst hn).symm.trans h)).symm⟩))
  | secondHost => rw [step_secondHost hn] at h; cases h

/-! ## The invariant, by kind of step -/

/-- The invariant does not look at the host, the schedule or the counters. -/
theorem State.Inv.congr {s t : State} (h : s.Inv) (h1 : t.busy = s.busy) (h2 : t.pendOp = s.pendOp)
    (h3 : t.inLen = s.inLen) (h4 : t.outLen = s.outLen) (h5 : t.inBuf = s.inBuf) (h6 : t.outBuf = s.outBuf)
    (h7 : t.resU = s.resU) (h8 : t.resS = s.resS) : t.Inv where
  busy_iff := by rw [h1, h2, h.busy_iff]
  inLen_le := by rw [h3]; exact h.inLen_le
  outLen_le := by rw [h4]; exact h.outLen_le
  in_wf := by rw [h5]; exact h.in_wf
  in_below := by rw [h5]; exact h.in_below
  out_wf := by rw [h6]; exact h.out_wf
  out_listed := by rw [h4, h6]; exact h.out_listed
  resU_lt := by rw [h7]; exact h.resU_lt
  resS_eq := by rw [h7, h8]; exact h.resS_eq

/-- What a result must be for its completion to keep the invariant; every operation's is (`opOf_fits`). -/
structure OpResult.Fits (r : OpResult) : Prop where
  out : ∀ w bs, r = .ok w → w.out = some bs → bs.length ≤ Config.nOut
  num : ∀ w uv, r = .ok w → w.num = some uv → uv.1 < 2 ^ Config.wU ∧ uv.2 = tc uv.1

theorem OpResult.fits_err (e : ErrCode) : OpResult.Fits (.err e) where
  out := by rintro w bs ⟨⟩
  num := by rintro w uv ⟨⟩

theorem opOf_fits (i : Instr) {s : State} (h : s.inLen.toNat ≤ Config.nIn) : (opOf i s.operand).Fits where
  out w bs hw hbs := by
    have := (opOf_writes hw).1 bs hbs
    rw [State.operand_length] at this
    rw [Config.nOut_eq]
    omega
  num w uv hw huv := by
    obtain ⟨h1, h2⟩ := (opOf_writes hw).2 uv huv
    refine ⟨h1.trans_le ?_, h2⟩
    rw [State.operand_length, show (16 : Nat) = 2 ^ 4 by norm_num, ← pow_mul, Config.wU_eq]
    exact Nat.pow_le_pow_right (by norm_num) (by omega)

theorem State.Inv.complete {s : State} (h : s.Inv) {r : OpResult} (hr : r.Fits) : (s.complete r).Inv := by
  cases r with
  | err e => exact { h with busy_iff := rfl }
  | ok w =>
    have hnum := s.complete_ok_num w
    refine
      { busy_iff := rfl, inLen_le := by simpa using h.inLen_le, in_wf := by simpa using h.in_wf,
        in_below := by simpa using h.in_below, outLen_le := ?_, out_wf := ?_, out_listed := ?_,
        resU_lt := ?_, resS_eq := ?_ }
    · cases ho : w.out with
      | none => rw [(s.complete_ok_noOut w ho).2]; exact h.outLen_le
      | some bs =>
        rw [(s.complete_ok_out w ho).2, BitVec.toNat_ofNat]
        exact (Nat.mod_le _ _).trans (hr.out w bs rfl ho)
    · cases ho : w.out with
      | none => rw [(s.complete_ok_noOut w ho).1]; exact h.out_wf
      | some bs => rw [(s.complete_ok_out w ho).1]; exact Memory.wf_ofBytes _ _
    · cases ho : w.out with
      | none => rw [(s.complete_ok_noOut w ho).1, (s.complete_ok_noOut w ho).2]; exact h.out_listed
      | some bs =>
        intro a
        have hl : bs.length < 2 ^ 32 := (hr.out w bs rfl ho).trans_lt Config.nOut_lt
        rw [(s.complete_ok_out w ho).1, (s.complete_ok_out w ho).2, BitVec.toNat_ofNat, Nat.mod_eq_of_lt hl,
          Memory.read_ofBytes_zero]
        by_cases ha : a < bs.length <;> simp [ha]
    · rw [hnum.1]
      cases hn : w.num with
      | none => exact h.resU_lt
      | some uv => exact (hr.num w uv rfl hn).1
    · rw [hnum.1, hnum.2]
      cases hn : w.num with
      | none => exact h.resS_eq
      | some uv => exact (hr.num w uv rfl hn).2

end Sys2Proof.Machine
end

