-- ==== Sys2Proof/Tests/Slice0.lean ====
section
/-! SUPPORT. The model's own tests. Expected results come from 95_test_vectors.md (each vector's id is named) or from the
rule named; the witnesses at the end show that the statements' hypotheses can be met. -/

namespace Sys2Proof.Tests

open Sys2Proof Sys2Proof.Machine

/-! ## Helpers -/

/-- The state in which the host has written a byte sequence to IN and its number to IN_LEN, from reset. -/
def loaded (bs : List Byte) : State :=
  { State.reset with inBuf := Memory.ofBytes 0 bs, inLen := BitVec.ofNat 32 bs.length }

/-- The same with an OP in flight. -/
def inFlight (op : BitVec 4) (bs : List Byte) : State := { loaded bs with busy := true, pendOp := some op }

/-- A state with one host instruction as its program. -/
def hosting (i : HostInstr) (s : State) : State := s.load [i]

/-- The outcome is a next state that passes a check. -/
def nextIs (o : Host.Outcome State Fault Refusal) (p : State → Bool) : Bool :=
  match o with
  | .next t => p t
  | _ => false

/-- The outcome is a fault. -/
def faults (o : Host.Outcome State Fault Refusal) : Bool :=
  match o with
  | .fault _ => true
  | _ => false

/-- The spec's recurring sequences: CMD, REQ, RAW. -/
def cmd : List Byte := commandBytes exampleCommand
def req : List Byte := [0x02] ++ cmd ++ [0x03, 0x42]
def raw : List Byte := [0x02] ++ exampleBody ++ [0x03]

/-! ## Well-formedness: each check refuses an ill-formed term -/

theorem test_legalCommand_refuses_illegal : legalCommand 0x00000000#32 = false ∧ legalCommand 0x00000008#32 = false ∧
    legalCommand 0x0000000F#32 = false := by decide

theorem test_canonicalCommand_refuses_reserved_bits :
    canonicalCommand 0x00000071#32 = false ∧ canonicalCommand 0x00000001#32 = true := by decide

theorem test_commandTextOk_refuses : commandTextOk [0x41, 0x02] = false ∧ commandTextOk [0x03] = false ∧
    commandTextOk [0x80] = false ∧ commandTextOk cmd = true := by decide

theorem test_wellFormed_all : Instr.wellFormed .bcc = true ∧ Instr.wellFormed .bccchk = true := by decide

/-- BUSY = 1 with no operation in flight is ill formed as a state. -/
theorem test_inv_refuses : ¬ ({ State.reset with busy := true } : State).Inv := fun h => by
  exact absurd h.busy_iff (by decide)

/-! ## Decoding: the words of R50, bit by bit (R49) -/

theorem test_decode_bcc : decode 0b00000000000000000000000000000001#32 = .ok .bcc := by decide
theorem test_decode_build : decode 0b00000000000000000000000000000010#32 = .ok .build := by decide
theorem test_decode_validate : decode 0b00000000000000000000000000000011#32 = .ok .validate := by decide
theorem test_decode_extract : decode 0b00000000000000000000000000000100#32 = .ok .extract := by decide
theorem test_decode_decode : decode 0b00000000000000000000000000000101#32 = .ok .decode := by decide
theorem test_decode_pipe : decode 0b00000000000000000000000000000110#32 = .ok .pipe := by decide
theorem test_decode_bccchk : decode 0b00000000000000000000000000000111#32 = .ok .bccchk := by decide

/-- D-I5, D-I6: bits 31:4 are ignored. -/
theorem test_decode_reserved : decode 0b00000000000000000000000001110001#32 = .ok .bcc ∧
    decode 0x12345676#32 = .ok .pipe := by decide

/-- D-I1 to D-I4: the illegal words. -/
theorem test_decode_illegal : decode 0x00000000#32 = .error (.illegalOp 0#4) ∧
    decode 0x00000008#32 = .error (.illegalOp 8#4) ∧ decode 0x0000000F#32 = .error (.illegalOp 15#4) ∧
    decode 0xFFFFFFF8#32 = .error (.illegalOp 8#4) := by decide

/-- The first instruction after reset, as the opcode table numbers its bits. -/
theorem test_step_of_withFetchWord :
    nextIs (step (State.reset.withFetchWord 32 1)) (fun t => t.err = .ok ∧ t.busy = false ∧ t.resBcc = 0#8) = true := by
  decide

/-! ## Operations -/

/-- D-B5, D-B8. -/
theorem test_bcc : nextIs (exec .bcc (loaded (cmd ++ [0x03]))) (fun t => t.resBcc = 0x42#8 ∧ t.err = .ok) = true ∧
    nextIs (exec .bcc (loaded [0x80, 0xFF])) (fun t => t.resBcc = 0x7F#8) = true := by decide

/-- D-U5. -/
theorem test_build : nextIs (exec .build (loaded cmd))
    (fun t => t.outBytes = req ∧ t.outLen = 24#32 ∧ t.resBcc = 0x42#8 ∧ t.err = .ok) = true := by decide

/-- D-U8, D-U9: an embedded delimiter is packed as it is. -/
theorem test_build_delimiters :
    nextIs (exec .build (loaded [0x02])) (fun t => t.outBytes = [0x02, 0x02, 0x03, 0x01]) = true ∧
    nextIs (exec .build (loaded [0x03])) (fun t => t.outBytes = [0x02, 0x03, 0x03, 0x00]) = true := by decide

/-- D-V11, D-V12, D-V8. -/
theorem test_validate :
    nextIs (exec .validate (loaded [0x02, 0x41, 0x42, 0x03, 0x43, 0x44, 0x03]))
      (fun t => t.outBytes = [0x41, 0x42] ∧ t.outLen = 2#32 ∧ t.err = .ok) = true ∧
    nextIs (exec .validate (loaded [0x02, 0x41, 0x02, 0x42, 0x03])) (fun t => t.outBytes = [0x41, 0x02, 0x42]) = true ∧
    nextIs (exec .validate (loaded [0x02, 0x03])) (fun t => t.outLen = 0#32 ∧ t.err = .ok) = true := by decide

/-- D-V3 to D-V7, D-V13. -/
theorem test_validate_errors :
    nextIs (exec .validate (loaded [])) (fun t => t.err = .missingStx) = true ∧
    nextIs (exec .validate (loaded [0x41, 0x02, 0x42])) (fun t => t.err = .missingStx) = true ∧
    nextIs (exec .validate (loaded [0x02])) (fun t => t.err = .missingEtx) = true ∧
    nextIs (exec .validate (loaded [0x03, 0x02, 0x03])) (fun t => t.err = .missingStx) = true := by decide

/-- D-E1, D-E2. -/
theorem test_extract :
    nextIs (exec .extract (loaded exampleBody)) (fun t => t.outBytes = exampleData ∧ t.outLen = 18#32) = true ∧
    nextIs (exec .extract (loaded (List.replicate 13 0x30 ++ [0x44, 0x45, 0x46])))
      (fun t => t.outBytes = [0x44, 0x45, 0x46] ∧ t.err = .ok) = true := by decide

/-- D-E3, D-E5, D-E6. -/
theorem test_extract_length :
    nextIs (exec .extract (loaded (List.replicate 15 0x30))) (fun t => t.err = .frameTooShort) = true ∧
    nextIs (exec .extract (loaded (List.replicate 13 0x30))) (fun t => t.err = .frameTooShort) = true ∧
    nextIs (exec .extract (loaded (List.replicate 13 0x30 ++ [0x5A, 0x5A, 0x5A, 0x5A])))
      (fun t => t.outBytes = [0x5A, 0x5A, 0x5A, 0x5A]) = true := by decide

/-- D-X3, D-X4, D-X9, D-X16. -/
theorem test_decode :
    nextIs (exec .decode (loaded [0x37, 0x46, 0x46, 0x46])) (fun t => t.resU = 32767 ∧ t.resS = 32767) = true ∧
    nextIs (exec .decode (loaded [0x38, 0x30, 0x30, 0x30])) (fun t => t.resU = 32768 ∧ t.resS = -32768) = true ∧
    nextIs (exec .decode (loaded [0x46, 0x66, 0x46, 0x36])) (fun t => t.resU = 65526 ∧ t.resS = -10) = true ∧
    nextIs (exec .decode (loaded (List.replicate 7 0x46 ++ [0x36]))) (fun t => t.resS = 4294901750) = true := by decide

/-- D-X17, D-X18, D-X24, D-X26, D-X27, and the neighbours of the three ranges of `ishex`. -/
theorem test_decode_errors :
    nextIs (exec .decode (loaded [])) (fun t => t.err = .notHex) = true ∧
    nextIs (exec .decode (loaded [0x30, 0x78, 0x31, 0x32])) (fun t => t.err = .notHex) = true ∧
    nextIs (exec .decode (loaded [0x46, 0x46, 0x46, 0x36, 0x03])) (fun t => t.err = .notHex) = true ∧
    nextIs (exec .decode (loaded [0x31, 0x80])) (fun t => t.err = .notHex) = true ∧
    ([0x2F, 0x3A, 0x40, 0x47, 0x60, 0x67].map ishex).any id = false := by decide

/-- D-P3, D-P10. -/
theorem test_pipe :
    nextIs (exec .pipe (loaded (raw ++ [0x00])))
      (fun t => t.outBytes = exampleData ∧ t.outLen = 18#32 ∧ t.resU = 65526 ∧ t.resS = -10 ∧ t.err = .ok) = true ∧
    nextIs (exec .pipe (loaded ([0x02] ++ List.replicate 13 0x39 ++ List.replicate 4 0x30 ++ [0x38, 0x30, 0x30, 0x30, 0x03])))
      (fun t => t.outLen = 8#32 ∧ t.resU = 32768 ∧ t.resS = -32768) = true := by decide

/-- D-P5, D-P6, D-P7, D-P8, D-P11. -/
theorem test_pipe_errors :
    nextIs (exec .pipe (loaded [0x41])) (fun t => t.err = .missingStx) = true ∧
    nextIs (exec .pipe (loaded [0x02, 0x5A, 0x5A, 0x03])) (fun t => t.err = .frameTooShort) = true ∧
    nextIs (exec .pipe (loaded ([0x02] ++ List.replicate 13 0x30 ++ [0x5A, 0x5A, 0x03])))
      (fun t => t.err = .frameTooShort) = true ∧
    nextIs (exec .pipe (loaded ([0x02] ++ List.replicate 13 0x30 ++ [0x5A, 0x5A, 0x5A, 0x03])))
      (fun t => t.err = .notHex) = true ∧
    nextIs (exec .pipe (loaded ([0x02] ++ exampleBody))) (fun t => t.err = .missingEtx) = true := by decide

/-- D-K1, D-K9, D-K13. -/
theorem test_bccchk :
    nextIs (exec .bccchk (loaded req)) (fun t => t.err = .ok ∧ t.resBcc = 0x42#8 ∧ t.outLen = 0#32) = true ∧
    nextIs (exec .bccchk (loaded [0x02, 0x41, 0x03, 0x42, 0x99])) (fun t => t.resBcc = 0x42#8) = true ∧
    nextIs (exec .bccchk (loaded [0x02, 0x03, 0x03, 0x00])) (fun t => t.err = .ok ∧ t.resBcc = 0x03#8) = true := by decide

/-- D-K3, D-K4, D-K6, D-K12. -/
theorem test_bccchk_errors :
    nextIs (exec .bccchk (loaded raw)) (fun t => t.err = .bccAbsent) = true ∧
    nextIs (exec .bccchk (loaded (raw ++ [0x41]))) (fun t => t.err = .bccMismatch ∧ t.resBcc = 0#8) = true ∧
    nextIs (exec .bccchk (loaded [0x02, 0x03, 0x00])) (fun t => t.err = .bccMismatch) = true ∧
    nextIs (exec .bccchk (loaded [0x02, 0x03, 0x04, 0x00])) (fun t => t.err = .bccMismatch) = true := by decide

/-- D-H16: what an error leaves (R107), beside a stale result. -/
theorem test_stale :
    nextIs (exec .pipe { loaded [0x41] with outLen := 18#32, resS := -10 })
      (fun t => t.err = .missingStx ∧ t.outLen = 18#32 ∧ t.resS = -10) = true := by decide

/-- The codes of R88. -/
theorem test_error_codes : [ErrCode.ok, .missingStx, .missingEtx, .frameTooShort, .notHex, .bccAbsent, .bccMismatch,
    .illegalOp].map ErrCode.code = [0, 1, 2, 3, 4, 5, 6, 7] := by decide

/-! ## The host, reset, the schedule -/

/-- D-H1, D-H2, D-H3. -/
theorem test_reads_after_reset :
    ([0, 1, 2, 3, 4, 5, 6, 7, 100].map fun r => hostReadReg r State.reset) = List.replicate 9 0 := by decide

/-- D-H4, D-H5: IN_LEN takes N_IN and ignores N_IN + 1. -/
theorem test_inLen_bound :
    nextIs (hostWriteReg 2 (BitVec.ofNat 32 Config.nIn) State.reset)
      (fun t => t.inLen = BitVec.ofNat 32 Config.nIn) = true ∧
    hostWriteReg 2 (BitVec.ofNat 32 (Config.nIn + 1)) State.reset = .next State.reset := by
  have h := Config.nOut_lt
  rw [Config.nOut_eq] at h
  constructor
  · have h1 : Config.nIn % 4294967296 ≤ Config.nIn := Nat.mod_le _ _
    simp [hostWriteReg, regInLen, regCtrl, State.reset, nextIs, h1]
  · have h1 : ¬ (Config.nIn + 1) % 4294967296 ≤ Config.nIn := by omega
    simp [hostWriteReg, regInLen, regCtrl, State.reset, h1]

/-- D-H6, D-H10: ignored writes, idle and busy. -/
theorem test_ignored_writes :
    nextIs (hostWriteReg 1 0x1F#32 State.reset) (fun t => t = State.reset) = true ∧
    nextIs (hostWriteReg 9 5#32 (inFlight 1 [])) (fun t => t = inFlight 1 []) = true ∧
    nextIs (hostWriteReg 5 5#32 (inFlight 1 [])) (fun t => t = inFlight 1 []) = true := by decide

/-- D-H7, D-H8, D-H9: the hazard. -/
theorem test_hazard : faults (hostWriteIn 0 0x41#8 (inFlight 1 [])) = true ∧
    faults (hostWriteReg 0 1#32 (inFlight 1 [])) = true ∧ faults (hostWriteReg 2 1#32 (inFlight 1 [])) = true := by decide

/-- D-H11: bit 4 of STATUS while busy is 1, whatever the rest. -/
theorem test_busy_read : (inFlight 6 raw).statusRead.getLsbD 4 = true := by
  simp [State.statusRead, inFlight, statusWord]

/-- D-H15: RST while busy. -/
theorem test_rst_while_busy : nextIs (step { inFlight 6 raw with turns := [.rst] })
    (fun t => t.busy = false ∧ t.pendOp = none ∧ t.err = .ok ∧ t.inLen = 0#32 ∧ t.resU = 0 ∧ t.inBuf = []) = true := by
  decide

/-- The host's CTRL write, then the CODEC: who moves by default (log 7). -/
theorem test_default_turns : nextIs (step (hosting (.wreg 0 6#32) (loaded raw)))
    (fun t => t.busy = true ∧ t.pendOp = some 6#4 ∧ t.nextTurn = .codec) = true ∧
    nextIs (step (inFlight 6 raw)) (fun t => t.resS = -10 ∧ t.busy = false ∧ t.nextTurn = .host) = true := by decide

/-- L3-1's code: `XEQ BUILD ; JERR fail ; HALT ; fail: HALT` (R61). -/
theorem test_assemble :
    assemble [⟨none, .xeq .build⟩, ⟨none, .jerr 0⟩, ⟨none, .halt⟩, ⟨some 0, .halt⟩] =
      some [.wreg 0 2#32, .rreg 1, .bnz 0x10 1, .rreg 1, .bnz 0x0F 6, .halt, .halt] := by decide

/-- LOADIN's expansion, and an undefined label. -/
theorem test_assemble_loadin :
    assemble [⟨none, .loadin [0x41, 0x42]⟩] = some [.win 0 0x41#8, .win 1 0x42#8, .wreg 2 2#32] ∧
    assemble [⟨none, .beq 0 7⟩] = none := by decide

/-- BNZ: a mask bit beyond 32, acc negative, no bit in common (R60, log 9). -/
theorem test_bnz : intAnd (2 ^ 40 + 1) (2 ^ 40) = 2 ^ 40 ∧ intAnd (-10) 0xFF = 0xF6 ∧ intAnd 0x10 0x0F = 0 ∧
    intAnd (-10) (-8) = -16 ∧
    nextIs (hostExec (.bnz (2 ^ 40) 7) (State.reset.setAcc (2 ^ 40))) (fun t => t.host.pc = 7) = true := by decide

/-- A label on two lines names the first (log 18). -/
theorem test_label_twice : labelPlace 0 [⟨none, .halt⟩, ⟨some 3, .halt⟩, ⟨some 3, .halt⟩] 3 = some 1 := by decide

/-- MOVOI's expansion for n = 2 (R61). -/
theorem test_movoi_expansion :
    movoiRest 2 = [.rout 0, .winAcc 0, .rout 1, .winAcc 1, .wreg 2 2#32] := by decide

/-! ## What the host makes of a result -/

/-- D-X1, D-X2, D-X4, D-X6, D-X7: "-1.000000", "0.200000", "-3276.800000", "0.000000", "-0.500000". -/
theorem test_render6 :
    render6 (-10) = [0x2D, 0x31, 0x2E, 0x30, 0x30, 0x30, 0x30, 0x30, 0x30] ∧
    render6 2 = [0x30, 0x2E, 0x32, 0x30, 0x30, 0x30, 0x30, 0x30] ∧
    render6 (-32768) = [0x2D, 0x33, 0x32, 0x37, 0x36, 0x2E, 0x38, 0x30, 0x30, 0x30, 0x30, 0x30] ∧
    render6 0 = [0x30, 0x2E, 0x30, 0x30, 0x30, 0x30, 0x30, 0x30] ∧
    render6 (-5) = [0x2D, 0x30, 0x2E, 0x35, 0x30, 0x30, 0x30, 0x30, 0x30] := by decide

/-- R83: -5 gives -0.5. -/
theorem test_decodedReading : decodedReading (-5) = -1 / 2 := by norm_num [decodedReading, Config.scale]

/-- R86. -/
theorem test_asciiFilter : asciiFilter [0x02, 0x80, 0x41, 0xFF, 0x7F] = [0x02, 0x41, 0x7F] := by decide

/-- R87's request branch for a command text of one byte: the code, OUT_LEN and all four OUT bytes read. -/
theorem test_requestLines : assemble (requestLines [0x41]) =
    some ([.win 0 0x41, .wreg 2 1, .wreg 0 2, .rreg 1, .bnz 0x10 3, .rreg 3] ++
      [.rout 0, .rout 1, .rout 2, .rout 3, .halt]) := by decide

/-- R87's response branch for one byte of 0x80 and above and one below: the code, with the two ends. -/
theorem test_pollResponse : assemble (pollCycle [0x80, 0x41]) =
    some [.win 0 0x41, .wreg 2 1, .wreg 0 6, .rreg 1, .bnz 0x10 3, .rreg 1, .bnz 0x0F 9, .rreg 6, .halt, .rreg 1, .halt] := by
  have h := Config.nIn_ge
  have ht : (asciiFilter [0x80, 0x41]).take Config.nIn = [0x41] := List.take_of_length_le (Nat.le_trans (by decide : _ ≤ 21) h)
  rw [pollCycle, if_neg (by decide), pollResponse, ht]
  decide

/-- R87's bytes for the link after BUILD of "A" (D-U2). -/
theorem test_linkWrite :
    nextIs (exec .build (loaded [0x41])) (fun t => t.outBytes = [0x02, 0x41, 0x03, 0x42]) = true ∧
    ∀ t, exec .build (loaded [0x41]) = .next t → linkWrite t = t.outBytes := by
  refine ⟨by decide, ?_⟩
  rintro t ⟨⟩
  exact linkWrite_eq_outBytes rfl (by have := Config.nIn_ge; rw [Config.nOut_eq]; exact Nat.le_trans (by decide : _ ≤ 4) (by omega))

/-- R87's response branch: D-P1 publishes "-1.000000", D-P5 reports MissingSTX. -/
theorem test_pollOutcome :
    nextIs (exec .pipe (loaded raw)) (fun t => pollOutcome t =
      .publish [0x2D, 0x31, 0x2E, 0x30, 0x30, 0x30, 0x30, 0x30, 0x30]) = true ∧
    nextIs (exec .pipe (loaded [0x41])) (fun t => pollOutcome t = .report 1#4 ∧ pollPublish t = none) = true := by decide

/-- R54: the example command has the field values the source fixes. -/
theorem test_sourceFields : sourceFields exampleCommand = true := by decide

/-! ## Witnesses: states and operands that meet the hypotheses of the statements, clause by clause, at the ends of the
ranges -/

theorem loaded_operand {bs : List Byte} (h : bs.length < 2 ^ 32) : (loaded bs).operand = bs := by
  apply List.ext_getElem?
  intro k
  rw [State.operand_getElem?]
  have hm : bs.length % 4294967296 = bs.length := Nat.mod_eq_of_lt h
  by_cases hk : k < bs.length <;> simp [loaded, State.inByte, hm, hk]

/-- The largest operand. -/
def fullOperand : List Byte := List.replicate Config.nIn 0x41

theorem fullOperand_length : (loaded fullOperand).inLen.toNat = Config.nIn := by
  have h := Config.nOut_lt
  rw [Config.nOut_eq] at h
  simp only [loaded, fullOperand, List.length_replicate, BitVec.toNat_ofNat]
  omega

/-- A state that is not the reset state and meets the invariant: a stale OUT, IN loaded, nothing in flight. -/
def worked : State :=
  { State.reset with inBuf := [(0, 0x41)], inLen := 1#32, outBuf := Memory.ofBytes 0 [0x02, 0x41, 0x03, 0x42], outLen := 4#32,
                     resU := 65526, resS := -10 }

theorem worked_inv : worked.Inv where
  busy_iff := rfl
  inLen_le := by have := Config.nIn_ge; exact Nat.le_trans (by decide) this
  outLen_le := by have := Config.nIn_ge; rw [Config.nOut_eq]; exact Nat.le_trans (by decide : _ ≤ 21) (by omega)
  in_wf := by decide
  in_below := by
    have := Config.nIn_ge
    intro c hc
    obtain rfl : c = (0, 0x41) := by simpa [worked] using hc
    exact Nat.lt_of_lt_of_le (by decide) this
  out_wf := by decide
  out_listed i := by
    show ((Memory.ofBytes 0 [0x02, 0x41, 0x03, 0x42]).read i).isSome = decide (i < 4)
    rw [Memory.read_ofBytes_zero]
    by_cases h : i < 4 <;> simp [h]
  resU_lt := by
    have := Config.nIn_ge
    refine lt_of_lt_of_le (b := 2 ^ 16) (by decide) (Nat.pow_le_pow_right (by decide) ?_)
    rw [Config.wU_eq]; omega
  resS_eq := by decide

/-- DecodeEncodeAgree: every operation is well formed. -/
theorem test_witness_wellFormed : Instr.bcc.wellFormed = true ∧ Instr.bccchk.wellFormed = true := by decide

/-- IllegalCommandsCompleteWithIllegalOp: OP 0, 8 and 15 in flight at a CODEC turn; two words of one OP. -/
theorem test_witness_illegal : ∀ op ∈ [0#4, 8#4, 15#4], (op = 0#4 ∨ 8 ≤ op.toNat) ∧
    (inFlight op raw).nextTurn = .codec ∧ (inFlight op raw).busy = true ∧ (inFlight op raw).pendOp = some op ∧
    opField (op.setWidth 32) = op ∧ opField (op.setWidth 32 ||| 0xFFFFFFF0#32) = op := by decide

/-- StepRunsPendingOperation, CompletionIsAtomic (busy), PendOpHeldExactlyWhileBusy, ErrLifecycle: each operation in flight. -/
theorem test_witness_inFlight : ∀ i ∈ [Instr.bcc, .build, .validate, .extract, .decode, .pipe, .bccchk],
    (inFlight i.op raw).nextTurn = .codec ∧ (inFlight i.op raw).busy = true ∧ (inFlight i.op raw).pendOp = some i.op ∧
    decodeOp i.op = .ok i ∧ i.wellFormed = true ∧
    (inFlight i.op raw).busy = (inFlight i.op raw).pendOp.isSome := by decide

/-- AcceptedCommandRunsNext: the first and the last row of the table. -/
theorem test_witness_tableWord : decodeTableWord 32 1 = some .bcc ∧ decodeTableWord 32 7 = some .bccchk := by decide

/-- CompletionIsAtomic, IdleBlockKeepsItsState: a CODEC turn with BUSY = 0, and a completion with an error. -/
theorem test_witness_codecTurn : ({ State.reset with turns := [.codec] } : State).nextTurn = .codec ∧
    nextIs (step (inFlight 6 [0x41])) (fun t => t.err ≠ .ok) = true := by decide

/-- AssertingRstResetsTheBlock: RST is next, idle and busy. -/
theorem test_witness_rst : ({ State.reset with turns := [.rst] } : State).nextTurn = .rst ∧
    ({ inFlight 6 raw with turns := [.rst] } : State).nextTurn = .rst := by decide

/-- StepKeepsTheInvariant, ResultRegistersFitTheirWidths: a state that meets the invariant and takes a step. -/
theorem test_witness_inv : worked.Inv ∧ ∃ t, step worked = .next t := ⟨worked_inv, _, rfl⟩

/-- PendOpHeldExactlyWhileBusy, OnlyCtrlWritesStartOperations: BUSY = 0, BUSY = 1, and the step that starts one. -/
theorem test_witness_start : State.reset.busy = false ∧ (inFlight 1 []).busy = true ∧
    (hosting (.wreg 0 6#32) State.reset).busy = false ∧
    nextIs (step (hosting (.wreg 0 6#32) State.reset)) (fun t => t.busy = true) = true := by decide

/-- TcAgainstSignExtension: both sides of 2^16. -/
theorem test_witness_tc : 65535 < 2 ^ Config.bitWidth ∧ 2 ^ Config.bitWidth ≤ 65536 := by decide

/-- BuildWritesTheRequestFrame, BuiltFramesCloseUnderXor, BuildDoesNotCheckItsOperand: the operand of N_IN bytes, the
empty one, and the frame's slices as operands. -/
theorem test_witness_build : (loaded fullOperand).inLen.toNat ≤ Config.nIn ∧ (loaded []).inLen = 0#32 ∧
    (loaded []).inLen.toNat ≤ Config.nIn ∧
    (∃ b, exec .build (loaded []) = .next b ∧ b.outBytes = [0x02, 0x03, 0x03] ∧
      (loaded [0x03, 0x03]).operand = slice b.outBytes 1 3 ∧ (loaded [0x03]).operand = slice b.outBytes 1 2) :=
  ⟨fullOperand_length.le, rfl, Nat.zero_le _, _, rfl, by decide, by decide, by decide⟩

/-- BuildDoesNotCheckItsOperand: a valid command text, and one with an ETX at its start. -/
theorem test_witness_commandText : commandTextOk cmd = true ∧ commandTextOk [] = true ∧
    first [0x03, 0x41] Config.etx = some 0 ∧ first [0x41, 0x03] Config.etx = some 1 := by decide

/-- RequestFrameLayout: the first and the last character, and 21 characters. -/
theorem test_witness_frameLayout : cmd.length = 21 ∧ 0 < cmd.length ∧ 20 < cmd.length := by decide

/-- ValidateStripsTheFrame, PipeRunsTheWholePipeline, BccchkChecksTheTrailingByte, ErrorPriority: no first byte, a wrong
one, STX alone, the shortest frame, and a frame with its ETX further on. -/
theorem test_witness_boundaries :
    (loaded []).operand.head? ≠ some 0x02#8 ∧ (loaded [0x03]).operand.head? ≠ some 0x02#8 ∧
    ((loaded [0x02]).operand.head? = some 0x02#8 ∧ 0x03#8 ∉ (loaded [0x02]).operand) ∧
    ((loaded [0x02, 0x03]).operand.head? = some 0x02#8 ∧ first (loaded [0x02, 0x03]).operand 0x03#8 = some 1) ∧
    ((loaded raw).operand.head? = some 0x02#8 ∧ first (loaded raw).operand 0x03#8 = some 32) := by decide

/-- ValidatorLaws: law 1 with an empty body, and with a frame that fills IN; laws 2 and 3. -/
theorem test_witness_validatorLaws :
    (0x03#8 ∉ ([] : List Byte) ∧ ([] : List Byte).length + 2 + ([] : List Byte).length ≤ Config.nIn ∧
      (loaded [0x02, 0x03]).operand = responseFrame [] ++ []) ∧
    (0x03#8 ∉ List.replicate (Config.nIn - 2) 0x41#8 ∧
      (List.replicate (Config.nIn - 2) 0x41#8).length + 2 + ([] : List Byte).length ≤ Config.nIn ∧
      (loaded (responseFrame (List.replicate (Config.nIn - 2) 0x41#8))).operand =
        responseFrame (List.replicate (Config.nIn - 2) 0x41#8) ++ []) ∧
    (∃ t, exec .validate (loaded raw) = .next t ∧ t.err = .ok ∧ (loaded raw).operand = responseFrame t.outBytes) ∧
    (loaded []).operand = [] := by
  have h := Config.nIn_ge
  have h' := Config.nOut_lt
  rw [Config.nOut_eq] at h'
  refine ⟨⟨by decide, by simp; omega, by decide⟩, ⟨?_, by simp; omega, ?_⟩, ⟨_, rfl, by decide, by decide⟩, by decide⟩
  · intro hm; exact absurd (List.eq_of_mem_replicate hm) (by decide)
  · rw [List.append_nil]
    exact loaded_operand (by simp [responseFrame]; omega)

/-- BccchkChecksTheTrailingByte: no byte after the first ETX, a wrong one, the right one. -/
theorem test_witness_bccchk :
    (loaded [0x02, 0x03]).operand.length ≤ 1 + 1 ∧
    ((loaded [0x02, 0x03, 0x00]).operand[1 + 1]? = some 0x00#8 ∧
      (0x00#8 : Byte) ≠ xorfold (slice (loaded [0x02, 0x03, 0x00]).operand 1 (1 + 1)) ∧
      first (loaded [0x02, 0x03, 0x00]).operand 0x03#8 = some 1) ∧
    ((loaded [0x02, 0x03, 0x03]).operand[1 + 1]? =
        some (xorfold (slice (loaded [0x02, 0x03, 0x03]).operand 1 (1 + 1))) ∧
      first (loaded [0x02, 0x03, 0x03]).operand 0x03#8 = some 1) := by decide

/-- BccchkAcceptsBuiltFrames: an operand without ETX, one with it, and one that just lets its frame fit IN. -/
theorem test_witness_builtFrames :
    (∃ b, exec .build (loaded [0x41]) = .next b ∧ (loaded [0x41]).inLen.toNat + 3 ≤ Config.nIn ∧
      (loaded [0x02, 0x41, 0x03, 0x42]).operand = b.outBytes ∧ 0x03#8 ∉ (loaded [0x41]).operand) ∧
    (∃ b, exec .build (loaded [0x03]) = .next b ∧ (loaded [0x03]).inLen.toNat + 3 ≤ Config.nIn ∧
      (loaded [0x02, 0x03, 0x03, 0x00]).operand = b.outBytes ∧ first (loaded [0x03]).operand 0x03#8 = some 0) ∧
    (loaded (List.replicate (Config.nIn - 3) 0x41)).inLen.toNat + 3 = Config.nIn := by
  have h := Config.nIn_ge
  have h' := Config.nOut_lt
  rw [Config.nOut_eq] at h'
  refine ⟨⟨_, rfl, ?_, by decide, by decide⟩, ⟨_, rfl, ?_, by decide, by decide⟩, ?_⟩
  · exact Nat.le_trans (by decide : _ ≤ 21) h
  · exact Nat.le_trans (by decide : _ ≤ 21) h
  · simp only [loaded, List.length_replicate, BitVec.toNat_ofNat]; omega

/-- ExtractTakesTheDataSection, DataSectionsHaveThreeBytes: 15 and 16 bytes; the ends of R74's range; a PIPE that
succeeds. -/
theorem test_witness_extract :
    (loaded (List.replicate 15 0x30)).operand.length < 16 ∧ 16 ≤ (loaded (List.replicate 16 0x30)).operand.length ∧
    (loaded (List.replicate 16 0x30)).operand.length ≤ Config.nIn - 2 ∧
    (loaded (List.replicate (Config.nIn - 2) 0x30)).operand.length = Config.nIn - 2 ∧
    nextIs (exec .extract (loaded (List.replicate 16 0x30))) (fun t => t.err = .ok) = true ∧
    nextIs (exec .pipe (loaded ([0x02] ++ List.replicate 16 0x30 ++ [0x03]))) (fun t => t.err = .ok) = true ∧
    (loaded ([0x02] ++ List.replicate 16 0x30 ++ [0x03])).inLen.toNat ≤ Config.nIn := by
  have h := Config.nIn_ge
  have h' := Config.nOut_lt
  rw [Config.nOut_eq] at h'
  refine ⟨by decide, by decide, ?_, ?_, by decide, by decide, ?_⟩
  · rw [show (loaded (List.replicate 16 0x30)).operand.length = 16 by decide]; omega
  · rw [State.operand_length]
    simp only [loaded, List.length_replicate, BitVec.toNat_ofNat]; omega
  · exact Nat.le_trans (by decide : _ ≤ 21) h

/-- HeaderAndEmbeddedStxAreNotRead, TrailingBytesAreIgnored: two headers, an embedded STX, two tails. -/
theorem test_witness_header :
    ((loaded exampleBody).operand = bodyOf #v[0x30, 0x31, 0x30, 0x30, 0x30, 0x30, 0x30, 0x31, 0x30, 0x32, 0x31, 0x30, 0x30]
        exampleData ∧
      (loaded (List.replicate 13 0x39 ++ exampleData)).operand = bodyOf (Vector.replicate 13 0x39#8) exampleData) ∧
    (0x03#8 ∉ (Vector.replicate 13 0x39#8).toList ∧ 0x03#8 ∉ exampleData ∧
      (loaded ([0x02] ++ List.replicate 13 0x39 ++ exampleData ++ [0x03, 0x40])).operand =
        responseFrame (bodyOf (Vector.replicate 13 0x39#8) exampleData) ++ [0x40] ∧
      (loaded (raw ++ [0x40])).operand = responseFrame (bodyOf
        #v[0x30, 0x31, 0x30, 0x30, 0x30, 0x30, 0x30, 0x31, 0x30, 0x32, 0x31, 0x30, 0x30] exampleData) ++ [0x40]) ∧
    (loaded [0x02, 0x41, 0x02, 0x42, 0x03]).operand = responseFrame ([0x41] ++ [0x02#8] ++ [0x42]) ∧
    (0x03#8 ∉ exampleBody ∧ (loaded (raw ++ [0x40])).operand = responseFrame exampleBody ++ [0x40] ∧
      (loaded raw).operand = responseFrame exampleBody ++ []) := by decide

/-- DecodeReadsASignedValue, ReadingIsExactTenth, WideValuesAreNotReduced: an empty operand, one with a byte that is no
digit, one of digits, and the least wide value. -/
theorem test_witness_decode :
    (loaded []).operand = [] ∧ (∃ b ∈ (loaded [0x47]).operand, ishex b = false) ∧
    ((loaded [0x66]).operand ≠ [] ∧ ∀ b ∈ (loaded [0x66]).operand, ishex b = true) ∧
    ((∀ b ∈ (loaded [0x31, 0x30, 0x30, 0x30, 0x30]).operand, ishex b = true) ∧
      hexnat (loaded [0x31, 0x30, 0x30, 0x30, 0x30]).operand = 65536) := by decide

/-- PipeRunsTheWholePipeline: bodies of 15 and 16 characters, with and without a byte that is no digit. -/
theorem test_witness_pipe :
    (slice (loaded ([0x02] ++ List.replicate 15 0x30 ++ [0x03])).operand 1 16).length < 16 ∧
    first (loaded ([0x02] ++ List.replicate 15 0x30 ++ [0x03])).operand 0x03#8 = some 16 ∧
    (first (loaded ([0x02] ++ List.replicate 16 0x5A ++ [0x03])).operand 0x03#8 = some 17 ∧
      16 ≤ (slice (loaded ([0x02] ++ List.replicate 16 0x5A ++ [0x03])).operand 1 17).length ∧
      ∃ b ∈ (slice (loaded ([0x02] ++ List.replicate 16 0x5A ++ [0x03])).operand 1 17).drop 13, ishex b = false) ∧
    (first (loaded ([0x02] ++ List.replicate 16 0x30 ++ [0x03])).operand 0x03#8 = some 17 ∧
      16 ≤ (slice (loaded ([0x02] ++ List.replicate 16 0x30 ++ [0x03])).operand 1 17).length ∧
      ∀ b ∈ (slice (loaded ([0x02] ++ List.replicate 16 0x30 ++ [0x03])).operand 1 17).drop 13, ishex b = true) := by
  decide

/-- PipeEqualsItsStages: a response that every stage takes, and one that fails at the first, second and third stage. -/
theorem test_witness_stages :
    (∃ p v x d, exec .pipe (loaded raw) = .next p ∧ exec .validate (loaded raw) = .next v ∧ v.err = .ok ∧
      (loaded exampleBody).operand = v.outBytes ∧ exec .extract (loaded exampleBody) = .next x ∧ x.err = .ok ∧
      (loaded exampleData).operand = x.outBytes ∧ exec .decode (loaded exampleData) = .next d ∧ d.err = .ok) ∧
    nextIs (exec .validate (loaded [])) (fun v => v.err ≠ .ok) = true ∧
    (∃ v x, exec .validate (loaded [0x02, 0x03]) = .next v ∧ v.err = .ok ∧ (loaded []).operand = v.outBytes ∧
      exec .extract (loaded []) = .next x ∧ x.err ≠ .ok) :=
  ⟨⟨_, _, _, _, rfl, rfl, by decide, by decide, rfl, by decide, by decide, rfl, by decide⟩, by decide,
    ⟨_, _, rfl, by decide, by decide, rfl, by decide⟩⟩

/-- ErrorPriority, ErrLifecycle: BUSY = 1 with an illegal OP, the least and the greatest. -/
theorem test_witness_priority : ∀ op ∈ [0#4, 15#4], (inFlight op []).nextTurn = .codec ∧ (inFlight op []).busy = true ∧
    (inFlight op []).pendOp = some op ∧ (op = 0#4 ∨ 8 ≤ op.toNat) := by decide

/-- HostReadsOfIn: a step, no reset, that does not write IN. -/
theorem test_witness_keepsIn : ((hosting (.rreg 1) worked).inBuf.read 0).isSome = true ∧ (∃ t, step (hosting (.rreg 1) worked) = .next t) ∧
    (hosting (.rreg 1) worked).nextTurn ≠ .rst ∧
    (∀ b h, (hosting (.rreg 1) worked).host.fetch ≠ some (.win 0 b, h)) ∧
    ∀ h, (hosting (.rreg 1) worked).host.fetch ≠ some (.winAcc 0, h) :=
  ⟨by decide, ⟨_, rfl⟩, by decide, fun b h e => (by cases e), fun h e => (by cases e)⟩

/-- ResultsAreStaleAfterAnError, OperandsAreNotForwarded, OperationsArePure, ErrLifecycle: an operation that raises. -/
theorem test_witness_error : ∃ t, exec .pipe (loaded [0x41]) = .next t ∧ t.err ≠ .ok ∧
    (loaded [0x41]).operand = [0x41] := ⟨_, rfl, by decide, by decide⟩

/-- ErrLifecycle, HostReadsOfOut: a step of each kind. -/
theorem test_witness_steps : (∃ t, step worked = .next t ∧ worked.nextTurn = .host ∧ worked.busy = false) ∧
    (∃ t, step { worked with turns := [.codec] } = .next t ∧
      ({ worked with turns := [.codec] } : State).nextTurn = .codec) ∧
    (∃ t, step { worked with turns := [.rst] } = .next t ∧ ({ worked with turns := [.rst] } : State).nextTurn = .rst) :=
  ⟨⟨_, rfl, by decide, by decide⟩, ⟨_, rfl, by decide⟩, ⟨_, rfl, by decide⟩⟩

/-- OperandIsFixedWhileBusy: a command accepted, and a host turn while an operation stays in flight. -/
theorem test_witness_whileBusy : (∃ t, hostWriteReg regCtrl 6#32 (loaded raw) = .next t) ∧
    (inFlight 6 raw).busy = true ∧
    nextIs (step { inFlight 6 raw with turns := [.host] }) (fun t => t.busy = true) = true :=
  ⟨⟨_, rfl⟩, by decide, by decide⟩

/-- BusyBit: BUSY falls by a completion and by RST, and rises by a host turn; BUSY = 0; an operation in flight at a CODEC
turn; a CODEC turn that goes on. -/
theorem test_witness_busyBit :
    nextIs (step (inFlight 1 [])) (fun t => t.busy = false) = true ∧ (inFlight 1 []).busy = true ∧
    nextIs (step { inFlight 1 [] with turns := [.rst] }) (fun t => t.busy = false) = true ∧
    nextIs (step (hosting (.wreg 0 1#32) State.reset)) (fun t => t.busy = true) = true ∧ State.reset.busy = false ∧
    (inFlight 1 []).nextTurn = .codec ∧ (inFlight 1 []).pendOp = some Instr.bcc.op := by decide

/-- HostRegisterWrites, UnmappedAndReadOnlyRegisters: the bounds of IN_LEN, busy and idle, and the register numbers at
the ends of each clause. -/
theorem test_witness_registerWrites : (inFlight 1 []).busy = true ∧ worked.busy = false ∧
    (BitVec.ofNat 32 Config.nIn).toNat ≤ Config.nIn ∧ Config.nIn < (BitVec.ofNat 32 (Config.nIn + 1)).toNat ∧
    (∀ r ∈ [1, 3, 4, 5, 6, 7], r ≠ 0 ∧ r ≠ 2 ∧ (7 ≤ r ∨ r = 1 ∨ r = 3 ∨ r = 4 ∨ r = 5 ∨ r = 6)) := by
  have h := Config.nOut_lt
  rw [Config.nOut_eq] at h
  refine ⟨by decide, by decide, ?_, ?_, by decide⟩ <;> rw [BitVec.toNat_ofNat] <;> omega

/-- HostWritesToIn, HostReadsOfIn: the last index, the first beyond, and a byte nobody wrote. -/
theorem test_witness_in : Config.nIn - 1 < Config.nIn ∧ Config.nIn ≤ Config.nIn ∧
    (∃ t, hostWriteIn (Config.nIn - 1) 0x41#8 worked = .next t) ∧ State.reset.inBuf.read 0 = none := by
  have h := Config.nIn_ge
  refine ⟨by omega, le_rfl,
    ⟨{ worked with inBuf := worked.inBuf.write (Config.nIn - 1) 0x41#8, draws := worked.draws + 1 }, ?_⟩, rfl⟩
  rw [hostWriteIn, if_neg (by decide), if_pos (by omega)]

/-- HostReadsOfOut, OutBeyondItsLengthIsUnspecified, ReadsWhileBusy: indices below and at OUT_LEN, at N_OUT - 1 and at
N_OUT, idle and busy. -/
theorem test_witness_out : Config.nOut ≤ Config.nOut ∧ Config.nOut - 1 < Config.nOut ∧ worked.busy = false ∧
    (inFlight 1 []).busy = true ∧ (3 < worked.outLen.toNat ∧ worked.outBuf.read 3 = some 0x42#8) ∧
    (worked.outLen.toNat ≤ 4 ∧ 4 < Config.nOut) ∧
    (∃ t, exec .validate (loaded [0x02, 0x41, 0x03]) = .next t ∧ t.OutHolds [0x41] ∧
      (loaded [0x02, 0x41, 0x03]).inLen.toNat ≤ Config.nIn) := by
  have h := Config.nIn_ge
  have h' := Config.nOut_eq
  refine ⟨le_rfl, by omega, by decide, by decide, by decide, ⟨by decide, by omega⟩, _, rfl, ⟨by decide, by decide, ?_⟩, ?_⟩
  · intro a ha
    show (Memory.ofBytes 0 [0x41]).read a = none
    rw [Memory.read_ofBytes_zero, List.getElem?_eq_none_iff]; exact ha
  · exact Nat.le_trans (by decide : _ ≤ 21) h

/-- SideEffectsOfHostAccesses: each kind of read, a byte written twice, an accepted command, another register. -/
theorem test_witness_accesses :
    (∃ t, hostExec (.rreg 1) worked = .next t) ∧ (∃ t, hostExec (.rin 0) worked = .next t) ∧
    (∃ t, hostExec (.rout 0) worked = .next t) ∧
    (∃ t u, hostWriteIn 0 0x41#8 worked = .next t ∧ hostWriteIn 0 0x41#8 t = .next u) ∧
    (∃ t, hostWriteReg regCtrl 1#32 worked = .next t) ∧
    (∃ t, hostWriteReg regInLen 0#32 worked = .next t ∧ regInLen ≠ regCtrl) ∧
    (∃ t, hostWriteReg 1 0#32 worked = .next t ∧ (1 : Nat) ≠ regCtrl ∧ (1 : Nat) ≠ regInLen) := by
  have h := Config.nIn_ge
  have h0 : ∀ s : State, s.busy = false → ∃ t, hostWriteIn 0 0x41#8 s = .next t ∧ t.busy = false := fun s hs => by
    refine ⟨{ s with inBuf := s.inBuf.write 0 0x41#8, draws := s.draws + 1 }, ?_, hs⟩
    simp [hostWriteIn, hs, show 0 < Config.nIn by omega]
  obtain ⟨t, ht, hb⟩ := h0 worked rfl
  obtain ⟨u, hu, -⟩ := h0 t hb
  exact ⟨⟨_, rfl⟩, ⟨_, rfl⟩, ⟨_, rfl⟩, ⟨t, u, ht, hu⟩, ⟨_, rfl⟩, ⟨_, rfl, by decide⟩, ⟨_, rfl, by decide, by decide⟩⟩

/-- WriteWhileBusyFaults: a step of each kind that faults, and a run that does. -/
theorem test_witness_faults :
    (∀ i ∈ [HostInstr.wreg 0 1#32, .wreg 2 1#32, .win 0 0x41#8, .winAcc 0],
      faults (step { hosting i (inFlight 1 []) with turns := [.host] }) = true) ∧
    (∃ f, Host.Core.run Sys2Proof.core 1 { hosting (.win 0 0x41#8) (inFlight 1 []) with turns := [.host] } = .fault f) :=
  ⟨by decide, _, rfl⟩

/-- StartedOperationsEnd: an operation in flight behind a schedule that makes it wait. -/
theorem test_witness_waiting : ({ inFlight 6 raw with turns := [.host, .host] } : State).busy = true ∧
    ∀ a ∈ ({ inFlight 6 raw with turns := [.host, .host] } : State).turns, a ≠ .secondHost := by decide

/-- IdleBlockKeepsItsState, SecondHostIsRefused: an idle block, and a second host's turn. -/
theorem test_witness_idle : worked.busy = false ∧ worked.turns = [] ∧ worked.host.fetch = none ∧
    ({ worked with turns := [.secondHost] } : State).nextTurn = .secondHost := by decide

/-- HostControlFlow: acc and a mask with bit 40 in common, and with none; a host with nothing queued. -/
theorem test_witness_halt : worked.host.queue = [] ∧
    (∃ k, Int.testBit (2 ^ 40) k = true ∧ Int.testBit (2 ^ 40 + 1) k = true) ∧
    (∀ k, Int.testBit 0 k = true → Int.testBit 5 k = false) :=
  ⟨rfl, ⟨40, by decide⟩, fun k h => absurd ((Nat.zero_testBit k).symm.trans h) (by decide)⟩

/-- HexnatIsPositional: the ends of the three ranges of digits and their neighbours, and a sequence of digits. -/
theorem test_witness_digits : (∀ b ∈ [0x30#8, 0x39#8], 0x30 ≤ b.toNat ∧ b.toNat ≤ 0x39) ∧
    (∀ b ∈ [0x41#8, 0x46#8], 0x41 ≤ b.toNat ∧ b.toNat ≤ 0x46) ∧
    (∀ b ∈ [0x61#8, 0x66#8], 0x61 ≤ b.toNat ∧ b.toNat ≤ 0x66) ∧
    (∀ b ∈ [0x2F#8, 0x3A#8, 0x40#8, 0x47#8, 0x60#8, 0x67#8], b.toNat < 0x30 ∨ (0x39 < b.toNat ∧ b.toNat < 0x41) ∨
      (0x46 < b.toNat ∧ b.toNat < 0x61) ∨ 0x66 < b.toNat) ∧
    ∀ b ∈ [0x46#8, 0x66#8], ishex b = true := by decide

/-- WaitLoopsWhileBusy: WAIT assembled at 1, the host at it. -/
theorem test_witness_wait :
    let s : State := { inFlight 6 raw with host := { worked.host with prog := [.halt, .rreg regStatus, .bnz 0x10 1], pc := 1 } }
    s.host.queue = [] ∧ s.host.halted = false ∧ s.host.pc = 1 ∧ s.host.prog[1]? = some (.rreg regStatus) ∧
    s.host.prog[1 + 1]? = some (.bnz 0x10 1) := by decide

theorem loaded_inv {bs : List Byte} (h : bs.length ≤ Config.nIn) : (loaded bs).Inv where
  busy_iff := rfl
  inLen_le := (Nat.mod_le _ _).trans h
  outLen_le := Nat.zero_le _
  in_wf := Memory.wf_ofBytes _ _
  in_below c hc := by
    have := (Memory.mem_ofBytes hc).2
    omega
  out_wf := rfl
  out_listed i := rfl
  resU_lt := Nat.two_pow_pos _
  resS_eq := rfl

/-- The state after BUILD of k bytes, MOVOI next. -/
def builtWithMovoi (k : Nat) : State :=
  hosting .movoi ((loaded (List.replicate k 0x41)).complete (opBuild (loaded (List.replicate k 0x41)).operand))

theorem builtWithMovoi_inv {k : Nat} (h : k ≤ Config.nIn) : (builtWithMovoi k).Inv := by
  have hl : (loaded (List.replicate k 0x41)).Inv := loaded_inv (by simpa using h)
  exact { hl.complete (opOf_fits .build hl.inLen_le) with }

theorem builtWithMovoi_outLen {k : Nat} (h : k ≤ Config.nIn) : (builtWithMovoi k).outLen.toNat = k + 3 := by
  have h' := Config.nOut_lt
  rw [Config.nOut_eq] at h'
  have hr : (loaded (List.replicate k 0x41)).operand = List.replicate k 0x41 := loaded_operand (by simp; omega)
  show (BitVec.ofNat 32 (requestFrame (loaded (List.replicate k 0x41)).operand).length).toNat = k + 3
  rw [hr, BitVec.toNat_ofNat]
  simp [requestFrame]
  omega

/-- MovoiCopiesOutToIn: results of N_IN and of N_IN + 1 bytes in OUT, MOVOI next. -/
theorem test_witness_movoi : ∀ k, k = Config.nIn - 3 ∨ k = Config.nIn - 2 →
    (builtWithMovoi k).Inv ∧ (builtWithMovoi k).busy = false ∧ (builtWithMovoi k).turns = [] ∧
    (builtWithMovoi k).host.queue = [] ∧ (∃ h, (builtWithMovoi k).host.fetch = some (.movoi, h)) ∧
    (k = Config.nIn - 3 → (builtWithMovoi k).outLen.toNat = Config.nIn) ∧
    (k = Config.nIn - 2 → (builtWithMovoi k).outLen.toNat = Config.nIn + 1) := by
  intro k hk
  have h := Config.nIn_ge
  have hk' : k ≤ Config.nIn := by omega
  refine ⟨builtWithMovoi_inv hk', rfl, rfl, rfl, ⟨_, rfl⟩, fun _ => ?_, fun _ => ?_⟩ <;>
    rw [builtWithMovoi_outLen hk'] <;> omega

end Sys2Proof.Tests
end

section
/-! PROOFS. The block's state and its life cycle (10_state.md): the host's registers, PEND_OP and BUSY, and the purity of
the operations. First what an access or a step does to these, said once each; then the statements. -/

namespace Sys2Proof.Machine

/-! ## The command's OP field -/

/-- R18's `v[3:0]` is the field OP of R49. -/
theorem opField_eq_extractLsb' (w : Word) : opField w = w.extractLsb' 0 4 :=
  BitVec.setWidth_eq_extractLsb' (by decide)

/-- The OP value of an operation selects it (R50). -/
@[simp] theorem decodeOp_op (i : Instr) : decodeOp i.op = .ok i := by cases i <;> rfl

/-! ## Host writes to registers (R34) -/

theorem hostWriteReg_ctrl_idle {s : State} (v : Word) (hb : s.busy = false) :
    hostWriteReg regCtrl v s = .next (s.start v) := by
  simp [hostWriteReg, hb]

theorem hostWriteReg_ctrl_busy {s : State} (v : Word) (hb : s.busy = true) :
    hostWriteReg regCtrl v s = .fault .hostWriteWhileBusy := by
  simp [hostWriteReg, hb]

/-- A write to any register but CTRL and IN_LEN is ignored, busy or not. -/
theorem hostWriteReg_ignored {r : Nat} (hc : r ≠ regCtrl) (hl : r ≠ regInLen) (v : Word) (s : State) :
    hostWriteReg r v s = .next s := by
  simp [hostWriteReg, hc, hl]

/-! ## Host reads of registers (R35) -/

@[simp] theorem hostReadReg_ctrl (s : State) : hostReadReg regCtrl s = 0 := rfl

@[simp] theorem hostReadReg_status (s : State) : hostReadReg regStatus s = s.statusRead.toNat := rfl

theorem hostReadReg_unmapped {r : Nat} (hr : 7 ≤ r) (s : State) : hostReadReg r s = 0 := by
  obtain ⟨k, rfl⟩ := Nat.exists_eq_add_of_le' hr
  simp [hostReadReg, regStatus, regInLen, regOutLen, regResBcc, regResU, regResS]

/-! ## The STATUS word (R19, R20) -/

theorem statusWord_toNat (b : Bool) (e : BitVec 4) : (statusWord b e).toNat = b.toNat * 16 + e.toNat := by
  cases b <;> revert e <;> decide

theorem statusWord_busyBit (b : Bool) (e : BitVec 4) : (statusWord b e).getLsbD 4 = b := by
  simp [statusWord]

theorem statusWord_lt (b : Bool) (e : BitVec 4) : (statusWord b e).toNat < 2 ^ 5 := by
  rw [statusWord_toNat]
  have := e.isLt
  have := b.toNat_le
  omega

theorem statusWord_reserved (b : Bool) (e : BitVec 4) {k : Nat} (hk : 5 ≤ k) :
    (statusWord b e).getLsbD k = false :=
  Nat.testBit_lt_two_pow ((statusWord_lt b e).trans_le (Nat.pow_le_pow_right (by decide) hk))

/-! ## What a step does to BUSY and PEND_OP -/

/-- A CODEC turn at BUSY = 1 with a legal OP in flight is that operation's completion (R43). -/
theorem step_codec_run {s : State} {op : BitVec 4} {i : Instr} (hn : s.nextTurn = .codec) (hb : s.busy = true)
    (hp : s.pendOp = some op) (hd : decodeOp op = .ok i) : step s = exec i s.spendTurn := by
  have hw : s.codecWork = .run i := by simp [State.codecWork, hb, hp, hd]
  simp [step, hn, hw]

/-- A host turn leaves BUSY and PEND_OP as they are, or it is a CTRL write accepted at BUSY = 0. -/
theorem hostTurn_busy_pendOp {s t : State} (h : hostTurn s = .next t) :
    (t.busy = s.busy ∧ t.pendOp = s.pendOp) ∨
    (∃ v g, s.host.fetch = some (.wreg regCtrl v, g) ∧ s.busy = false ∧ t.busy = true ∧
      t.pendOp = some (opField v)) := by
  rcases hostTurn_cases h with ⟨g, rfl⟩ | ⟨v, g, hf, hb, rfl⟩ | ⟨v, g, -, -, rfl⟩ | ⟨k, b, g, -, -, rfl⟩
  · exact .inl ⟨rfl, rfl⟩
  · exact .inr ⟨v, g, hf, hb, rfl, rfl⟩
  · exact .inl ⟨rfl, rfl⟩
  · exact .inl ⟨rfl, rfl⟩

/-- Everything a step can do to BUSY and PEND_OP: keep both (a host turn, or a CODEC turn with nothing to complete),
accept a CTRL write (R18), or empty both (a completion or RST). -/
theorem step_busy_pendOp {s t : State} (h : step s = .next t) :
    ((s.nextTurn = .host ∨ s.nextTurn = .codec ∧ s.busy = false) ∧ t.busy = s.busy ∧ t.pendOp = s.pendOp) ∨
    (s.nextTurn = .host ∧ ∃ v g, s.host.fetch = some (.wreg regCtrl v, g) ∧ s.busy = false ∧ t.busy = true ∧
      t.pendOp = some (opField v)) ∨
    ((s.nextTurn = .codec ∨ s.nextTurn = .rst) ∧ t.busy = false ∧ t.pendOp = none) := by
  rcases step_cases h with ⟨hn, ht⟩ | ⟨hn, hb, rfl⟩ | ⟨hn, -, r, rfl, -⟩ | ⟨hn, rfl⟩
  · rcases hostTurn_busy_pendOp ht with hkeep | hstart
    · exact .inl ⟨.inl hn, hkeep⟩
    · exact .inr (.inl ⟨hn, hstart⟩)
  · exact .inl ⟨.inr ⟨hn, hb⟩, rfl, rfl⟩
  · exact .inr (.inr ⟨.inl hn, by simp, by simp⟩)
  · exact .inr (.inr ⟨.inr hn, rfl, rfl⟩)

/-- Only a CTRL write the host fetched raises BUSY, and its `v[3:0]` is then in flight (R18). -/
theorem step_raises_busy {s t : State} (h : step s = .next t) (hs : s.busy = false) (ht : t.busy = true) :
    s.nextTurn = .host ∧ ∃ v g, s.host.fetch = some (.wreg regCtrl v, g) ∧ t.pendOp = some (opField v) := by
  rcases step_busy_pendOp h with ⟨-, hb, -⟩ | ⟨hn, v, g, hf, -, -, hp⟩ | ⟨-, hb, -⟩
  · simp [hb, hs] at ht
  · exact ⟨hn, v, g, hf, hp⟩
  · simp [hb] at ht

/-- Only a CODEC turn or RST clears BUSY (R20). -/
theorem step_clears_busy {s t : State} (h : step s = .next t) (hs : s.busy = true) (ht : t.busy = false) :
    s.nextTurn = .codec ∨ s.nextTurn = .rst := by
  rcases step_busy_pendOp h with ⟨-, hb, -⟩ | ⟨-, v, g, -, hb, -, -⟩ | ⟨hn, -, -⟩
  · simp [hb, hs] at ht
  · simp [hb] at hs
  · exact hn

/-- No operation is in flight after a CODEC turn. -/
theorem step_codec_not_busy {s t : State} (h : step s = .next t) (hn : s.nextTurn = .codec) : t.busy = false := by
  rcases step_busy_pendOp h with ⟨hturn | ⟨-, hs⟩, hb, -⟩ | ⟨hturn, -⟩ | ⟨-, hb, -⟩
  · simp [hn] at hturn
  · exact hb.trans hs
  · simp [hn] at hturn
  · exact hb

/-- A CODEC turn at BUSY = 1 clears BUSY and PEND_OP in one step, which is `exec` of the operation in flight. -/
theorem step_codec_completes {s : State} (hn : s.nextTurn = .codec) (hs : s.busy = true) :
    ∃ t, step s = .next t ∧ t.busy = false ∧ t.pendOp = none ∧
      ∀ i : Instr, s.pendOp = some i.op → exec i s.spendTurn = .next t := by
  obtain ⟨r, hr, -⟩ := step_codec_busy hn hs
  refine ⟨_, hr, by simp, by simp, fun i hp => ?_⟩
  rw [← step_codec_run hn hs hp (decodeOp_op i), hr]

/-- A step keeps the agreement of BUSY and PEND_OP (R29). -/
theorem step_keeps_busy_iff {s t : State} (hs : s.busy = s.pendOp.isSome) (h : step s = .next t) :
    t.busy = t.pendOp.isSome := by
  rcases step_busy_pendOp h with ⟨-, hb, hp⟩ | ⟨-, v, g, -, -, hb, hp⟩ | ⟨-, hb, hp⟩
  · rw [hb, hp, hs]
  · rw [hb, hp, Option.isSome_some]
  · rw [hb, hp, Option.isSome_none]

/-- PEND_OP is not readable by the host (R29). -/
theorem hostReads_ignore_pendOp (s : State) (p : Option (BitVec 4)) (k : Nat) :
    hostReadReg k { s with pendOp := p } = hostReadReg k s ∧
      hostReadIn k { s with pendOp := p } = hostReadIn k s ∧
      hostReadOut k { s with pendOp := p } = hostReadOut k s :=
  ⟨rfl, rfl, rfl⟩

/-! ## The statements -/

/-- Settles O12: `step_busy_pendOp` splits a step, and each of its three cases keeps PEND_OP and BUSY in agreement. -/
theorem pendOpHeldExactlyWhileBusy : Obligations.PendOpHeldExactlyWhileBusy := by
  refine ⟨rfl, fun s v hb => ?ctrlWrite, fun s t hn hb h => ?completion, fun s t => step_keeps_busy_iff,
    hostReads_ignore_pendOp⟩
  case ctrlWrite => exact ⟨s.start v, hostWriteReg_ctrl_idle v hb, rfl, rfl⟩
  case completion =>
    obtain ⟨t', h', hbusy, hpend, -⟩ := step_codec_completes hn hb
    obtain rfl : t' = t := Host.Outcome.next.inj (h'.symm.trans h)
    exact ⟨hpend, hbusy⟩

/-- Settles O43: a CTRL write at BUSY = 0 is `State.start`, and no other case of `step_busy_pendOp` raises BUSY. -/
theorem onlyCtrlWritesStartOperations : Obligations.OnlyCtrlWritesStartOperations := by
  refine ⟨fun s v hb => ?ctrlWrite, fun s v => hostWriteReg_ctrl_busy v, fun s t h hs ht => ?onlyWay,
    hostReadReg_ctrl⟩
  case ctrlWrite => exact ⟨s.start v, hostWriteReg_ctrl_idle v hb, by simp [opField_eq_extractLsb'], rfl, rfl⟩
  case onlyWay =>
    obtain ⟨hn, v, g, hf, hp⟩ := step_raises_busy h hs ht
    exact ⟨v, g, hn, hf, by rw [hp, opField_eq_extractLsb']⟩

/-- Settles O44: who raises and who clears BUSY, by `step_busy_pendOp`; its read, by the bits of the STATUS word. -/
theorem busyBit : Obligations.BusyBit := by
  refine ⟨fun s v hb => ?set, fun s t h hs ht => ?raised, fun s t => step_clears_busy, fun s hn hb => ?completion,
    fun s t => step_codec_not_busy, rfl, fun s => ?read⟩
  case set => exact ⟨s.start v, hostWriteReg_ctrl_idle v hb, rfl⟩
  case raised =>
    obtain ⟨hn, v, g, hf, -⟩ := step_raises_busy h hs ht
    exact ⟨hn, v, g, hf⟩
  case completion =>
    obtain ⟨t, h, hbusy, -, hexec⟩ := step_codec_completes hn hb
    exact ⟨t, h, hbusy, hexec⟩
  case read => exact ⟨statusWord_busyBit _ _, fun k => statusWord_reserved _ _⟩

/-- Settles O40: the one outcome is `opOf` of the operation and its operand. -/
theorem operationsArePure : Obligations.OperationsArePure := by
  intro i bytes
  refine ⟨opOf i bytes, fun s hs => ?_⟩
  rw [exec_eq_complete, hs]

/-- Settles O50: such a register is neither CTRL nor IN_LEN, and the STATUS word has five bits. -/
theorem unmappedAndReadOnlyRegisters : Obligations.UnmappedAndReadOnlyRegisters := by
  refine ⟨fun s r hr => hostReadReg_unmapped hr s, fun s r v hr => ?ignored, fun s => ?read⟩
  case ignored =>
    have hc : r ≠ regCtrl := by simp only [regCtrl]; omega
    have hl : r ≠ regInLen := by simp only [regInLen]; omega
    exact hostWriteReg_ignored hc hl v s
  case read =>
    have hlt : s.statusRead.toNat < 2 ^ 5 := statusWord_lt _ _
    have hread : hostReadReg 1 s = s.statusRead.toNat := hostReadReg_status s
    exact ⟨hostReadReg_ctrl s, by omega, by omega⟩

end Sys2Proof.Machine
end

section
/-! PROOFS. The block's memory and its agents (20_memory.md): the host's accesses to the registers, IN and OUT, the
CODEC's complete step, and the operand while an operation is in flight. First what an access or a step does to these,
said once each; then the statements. -/

namespace Sys2Proof.Machine

/-! ## Host accesses to IN_LEN and the result registers (R34, R35) -/

theorem hostWriteReg_inLen_busy {s : State} (v : Word) (hb : s.busy = true) :
    hostWriteReg regInLen v s = .fault .hostWriteWhileBusy := by
  simp [hostWriteReg, hb]

theorem hostWriteReg_inLen_legal {s : State} {v : Word} (hb : s.busy = false) (hv : v.toNat ≤ Config.nIn) :
    hostWriteReg regInLen v s = .next { s with inLen := v, draws := s.draws + 1 } := by
  simp [hostWriteReg, hb, hv, regCtrl, regInLen]

theorem hostWriteReg_inLen_ignored {s : State} {v : Word} (hb : s.busy = false) (hv : Config.nIn < v.toNat) :
    hostWriteReg regInLen v s = .next s := by
  simp [hostWriteReg, hb, Nat.not_le_of_lt hv, regCtrl, regInLen]

@[simp] theorem hostReadReg_inLen (s : State) : hostReadReg regInLen s = s.inLen.toNat := rfl

theorem hostReadReg_results_idle {s : State} (hb : s.busy = false) :
    hostReadReg regOutLen s = s.outLen.toNat ∧ hostReadReg regResBcc s = s.resBcc.toNat ∧
      hostReadReg regResU s = s.resU ∧ hostReadReg regResS s = s.resS := by
  simp [hostReadReg, hb, regStatus, regInLen, regOutLen, regResBcc, regResU, regResS]

theorem hostReadReg_results_busy {s : State} (hb : s.busy = true) :
    hostReadReg regOutLen s = (Config.freeOutLen s.draws).toNat ∧
      hostReadReg regResBcc s = (Config.freeResBcc s.draws).toNat ∧
      hostReadReg regResU s = (Config.freeResU s.draws).toNat ∧
      hostReadReg regResS s = (Config.freeResS s.draws).toInt := by
  simp [hostReadReg, hb, regStatus, regInLen, regOutLen, regResBcc, regResU, regResS]

/-- Correcting a natural number of at least 16 bits leaves an integer of one bit more (R24, R25). -/
theorem tc_bounds {u w : Nat} (hw : 16 ≤ w) (hu : u < 2 ^ w) : -(2 : Int) ^ w ≤ tc u ∧ tc u < (2 : Int) ^ w := by
  have hlt : (u : Int) < 2 ^ w := mod_cast hu
  have hpow : (2 : Int) ^ 16 ≤ 2 ^ w := pow_le_pow_right₀ (by decide) hw
  rw [tc_eq]
  split <;> constructor <;> omega

/-- What a read of RES_U gives is below 2^W_U, busy or not. -/
theorem hostReadReg_resU_bounds {s : State} (hs : s.Inv) :
    0 ≤ hostReadReg regResU s ∧ hostReadReg regResU s < (2 : Int) ^ Config.wU := by
  cases hb : s.busy with
  | false =>
    obtain ⟨-, -, hread, -⟩ := hostReadReg_results_idle hb
    rw [hread]
    exact ⟨Int.natCast_nonneg _, mod_cast hs.resU_lt⟩
  | true =>
    obtain ⟨-, -, hread, -⟩ := hostReadReg_results_busy hb
    rw [hread]
    exact ⟨Int.natCast_nonneg _, mod_cast (Config.freeResU s.draws).isLt⟩

/-- What a read of RES_S gives is in the two's-complement range of W_S bits, busy or not. -/
theorem hostReadReg_resS_bounds {s : State} (hs : s.Inv) :
    -(2 : Int) ^ (Config.wS - 1) ≤ hostReadReg regResS s ∧ hostReadReg regResS s < (2 : Int) ^ (Config.wS - 1) := by
  cases hb : s.busy with
  | false =>
    obtain ⟨-, -, -, hread⟩ := hostReadReg_results_idle hb
    have hw : 16 ≤ Config.wU := by
      have := Config.nIn_ge
      rw [Config.wU_eq]
      omega
    rw [hread, hs.resS_eq, Config.wS_eq, Nat.add_sub_cancel]
    exact tc_bounds hw hs.resU_lt
  | true =>
    obtain ⟨-, -, -, hread⟩ := hostReadReg_results_busy hb
    rw [hread]
    exact ⟨BitVec.le_toInt _, BitVec.toInt_lt⟩

/-! ## Host writes to IN (R36) -/

theorem hostWriteIn_busy {s : State} (i : Nat) (b : Byte) (hb : s.busy = true) :
    hostWriteIn i b s = .fault .hostWriteWhileBusy := by
  simp [hostWriteIn, hb]

theorem hostWriteIn_outOfRange {s : State} {i : Nat} (b : Byte) (hb : s.busy = false) (hi : Config.nIn ≤ i) :
    hostWriteIn i b s = .next s := by
  simp [hostWriteIn, hb, Nat.not_lt_of_le hi]

theorem hostWriteIn_inRange {s : State} {i : Nat} (b : Byte) (hb : s.busy = false) (hi : i < Config.nIn) :
    hostWriteIn i b s = .next { s with inBuf := s.inBuf.write i b, draws := s.draws + 1 } := by
  simp [hostWriteIn, hb, hi]

/-- A byte of IN depends on what IN lists there and on the reset its unwritten bytes date from. -/
theorem State.inByte_congr {s t : State} {i : Nat} (hread : t.inBuf.read i = s.inBuf.read i)
    (hresets : t.resets = s.resets) : t.inByte i = s.inByte i := by
  rw [State.inByte, State.inByte, hread, hresets]

theorem State.inByte_of_read {s : State} {i : Nat} {b : Byte} (h : s.inBuf.read i = some b) : s.inByte i = b := by
  rw [State.inByte, h, Option.getD_some]

/-! ## Reads of IN and OUT (R37, R38) -/

theorem hostReadIn_inRange {i : Nat} (hi : i < Config.nIn) (s : State) : hostReadIn i s = s.inByte i := if_pos hi

theorem hostReadIn_outOfRange {i : Nat} (hi : Config.nIn ≤ i) (s : State) : hostReadIn i s = 0x00#8 :=
  if_neg (Nat.not_lt_of_le hi)

theorem hostReadOut_outOfRange {i : Nat} (hi : Config.nOut ≤ i) (s : State) : hostReadOut i s = 0x00#8 := if_pos hi

theorem hostReadOut_busy {s : State} {i : Nat} (hi : i < Config.nOut) (hb : s.busy = true) :
    hostReadOut i s = Config.freeOut s.draws i := by
  simp [hostReadOut, hb, Nat.not_le_of_lt hi]

theorem hostReadOut_idle {s : State} {i : Nat} (hi : i < Config.nOut) (hb : s.busy = false) :
    hostReadOut i s = s.outByte i := by
  simp [hostReadOut, hb, Nat.not_le_of_lt hi]

theorem State.outByte_of_read {s : State} {i : Nat} {b : Byte} (hi : i < s.outLen.toNat)
    (h : s.outBuf.read i = some b) : s.outByte i = b := by
  rw [State.outByte, if_pos hi, h, Option.getD_some]

theorem State.outByte_beyond {s : State} {i : Nat} (hi : s.outLen.toNat ≤ i) :
    s.outByte i = Config.freeOut s.draws i := if_neg (Nat.not_lt_of_le hi)

theorem State.outBytes_getElem? {s : State} {i : Nat} (hi : i < s.outLen.toNat) :
    s.outBytes[i]? = some (s.outByte i) := by
  simp [State.outBytes, hi]

/-! ## What a host turn does to IN and OUT -/

/-- A host instruction leaves IN as it is, or it is a write of one byte of IN. -/
theorem hostExec_inBuf {j : HostInstr} {s t : State} (h : hostExec j s = .next t) :
    t.inBuf = s.inBuf ∨ ∃ k b, (j = .win k b ∨ j = .winAcc k) ∧ t.inBuf = s.inBuf.write k b := by
  cases j with
  | win k b =>
    rcases hostWriteIn_cases h with ⟨-, -, rfl⟩ | rfl
    · exact .inr ⟨k, b, .inl rfl, rfl⟩
    · exact .inl rfl
  | winAcc k =>
    rcases hostWriteIn_cases h with ⟨-, -, rfl⟩ | rfl
    · exact .inr ⟨k, _, .inr rfl, rfl⟩
    · exact .inl rfl
  | wreg r v => rcases hostWriteReg_cases h with ⟨-, -, rfl⟩ | ⟨-, -, -, rfl⟩ | rfl <;> exact .inl rfl
  | bnz m k =>
    obtain rfl := Host.Outcome.next.inj h
    split <;> exact .inl rfl
  | beq m k =>
    obtain rfl := Host.Outcome.next.inj h
    split <;> exact .inl rfl
  | rreg | rin | rout | wout | movoi | halt =>
    obtain rfl := Host.Outcome.next.inj h
    exact .inl rfl

/-- A host turn leaves IN as it is, or its instruction is a write of one byte of IN. -/
theorem hostTurn_inBuf {s t : State} (h : hostTurn s = .next t) :
    t.inBuf = s.inBuf ∨
      ∃ k b g, (s.host.fetch = some (.win k b, g) ∨ s.host.fetch = some (.winAcc k, g)) ∧
        t.inBuf = s.inBuf.write k b := by
  unfold hostTurn at h
  cases hf : s.host.fetch with
  | none =>
    rw [hf] at h
    obtain rfl := Host.Outcome.next.inj h
    exact .inl rfl
  | some p =>
    obtain ⟨j, g⟩ := p
    rw [hf] at h
    rcases hostExec_inBuf h with hkeep | ⟨k, b, rfl | rfl, hwrite⟩
    · exact .inl hkeep
    · exact .inr ⟨k, b, g, .inl rfl, hwrite⟩
    · exact .inr ⟨k, b, g, .inr rfl, hwrite⟩

/-- The host neither writes OUT nor resets the block. -/
theorem hostTurn_keeps_out_resets {s t : State} (h : hostTurn s = .next t) :
    t.outBuf = s.outBuf ∧ t.outLen = s.outLen ∧ t.resets = s.resets := by
  rcases hostTurn_cases h with ⟨g, rfl⟩ | ⟨v, g, -, -, rfl⟩ | ⟨v, g, -, -, rfl⟩ | ⟨k, b, g, -, -, rfl⟩ <;>
    exact ⟨rfl, rfl, rfl⟩

/-- While an operation is in flight the host can change nothing but itself (R105). -/
theorem hostTurn_busy {s t : State} (hb : s.busy = true) (h : hostTurn s = .next t) :
    ∃ g, t = { s with host := g } := by
  rcases hostTurn_cases h with hhost | ⟨v, g, -, hidle, -⟩ | ⟨v, g, hidle, -⟩ | ⟨k, b, g, hidle, -⟩
  · exact hhost
  all_goals exact Bool.noConfusion (hb.symm.trans hidle)

/-! ## What a step does to IN -/

/-- A step that is no reset keeps every byte of IN, but one that the host's instruction writes. -/
theorem step_inByte {s t : State} {i : Nat} (h : step s = .next t) (hn : s.nextTurn ≠ .rst)
    (hwin : ∀ b g, s.host.fetch ≠ some (.win i b, g)) (hacc : ∀ g, s.host.fetch ≠ some (.winAcc i, g)) :
    t.inByte i = s.inByte i := by
  rcases step_cases h with ⟨-, hturn⟩ | ⟨-, -, rfl⟩ | ⟨-, -, r, rfl, -⟩ | ⟨hrst, -⟩
  · obtain ⟨-, -, hresets⟩ := hostTurn_keeps_out_resets hturn
    refine State.inByte_congr ?_ hresets
    rcases hostTurn_inBuf hturn with hkeep | ⟨k, b, g, hf, hwrite⟩
    · rw [hkeep, State.spendTurn_inBuf]
    · have hk : i ≠ k := by
        rintro rfl
        exact hf.elim (hwin b g) (hacc g)
      rw [hwrite, Memory.read_write_other _ b hk, State.spendTurn_inBuf]
  · rfl
  · exact State.inByte_congr (by simp) (by simp)
  · exact absurd hrst hn

/-- From BUSY = 1 to BUSY = 1 a step changes the host and the schedule alone: it is a host turn. -/
theorem step_stays_busy {s t : State} (h : step s = .next t) (hs : s.busy = true) (ht : t.busy = true) :
    ∃ g, t = { s.spendTurn with host := g } := by
  rcases step_cases h with ⟨-, hturn⟩ | ⟨-, hidle, -⟩ | ⟨-, -, r, rfl, -⟩ | ⟨-, rfl⟩
  · exact hostTurn_busy hs hturn
  · simp [hs] at hidle
  · simp at ht
  · simp at ht

/-! ## The complete step (R43, R51) -/

/-- A completion whose outcome is an error wrote STATUS and PEND_OP alone (R11). -/
theorem State.complete_raises {s : State} {r : OpResult} (h : (s.complete r).err ≠ .ok) :
    Raises s (s.complete r) (s.complete r).err := by
  cases r with
  | ok w => exact absurd (s.complete_ok_err w) h
  | err e => exact s.complete_err e

theorem decodeOp_illegal {op : BitVec 4} (h : op = 0#4 ∨ 8 ≤ op.toNat) : decodeOp op = .error (.illegalOp op) := by
  revert op
  decide

/-- A CODEC turn at BUSY = 1 with an illegal OP in flight is the completion with IllegalOp. -/
theorem step_codec_illegal {s : State} {op : BitVec 4} (hn : s.nextTurn = .codec) (hb : s.busy = true)
    (hp : s.pendOp = some op) (hop : op = 0#4 ∨ 8 ≤ op.toNat) : step s = .next s.spendTurn.completeIllegal := by
  have hw : s.codecWork = .illegal := by simp [State.codecWork, hb, hp, decodeOp_illegal hop]
  simp [step, hn, hw]

/-! ## The statements -/

/-- Settles O7: a CODEC turn spends itself at BUSY = 0, and at BUSY = 1 it is one `State.complete`. -/
theorem completionIsAtomic : Obligations.CompletionIsAtomic := by
  refine fun s hn => ⟨fun hb t h => ?idle, fun hb => ?busy⟩
  case idle =>
    obtain rfl := Host.Outcome.next.inj ((step_codec_idle hn hb).symm.trans h)
    exact ⟨rfl, hb, ⟨rfl, fun _ => rfl⟩, rfl, rfl, rfl⟩
  case busy =>
    obtain ⟨r, hr, -⟩ := step_codec_busy hn hb
    refine ⟨_, hr, by simp, by simp, State.complete_keepsInput _ r, fun i hp => ⟨?_, s.spendTurn_operand⟩,
      fun op hp hop => ?_, State.complete_raises⟩
    · rw [← step_codec_run hn hb hp (decodeOp_op i), hr]
    · rw [← Host.Outcome.next.inj ((step_codec_illegal hn hb hp hop).symm.trans hr)]
      rfl

/-- Settles O42: a CTRL write, a step from busy to busy and a completion write neither IN nor IN_LEN. -/
theorem operandIsFixedWhileBusy : Obligations.OperandIsFixedWhileBusy := by
  refine ⟨fun s t v h => ?ctrlWrite, fun s t hs h ht => ?inFlight, fun i s t h => ?completion⟩
  case ctrlWrite =>
    rcases hostWriteReg_cases h with ⟨-, -, rfl⟩ | ⟨hr, -⟩ | rfl
    · rfl
    · simp [regCtrl, regInLen] at hr
    · rfl
  case inFlight =>
    obtain ⟨g, rfl⟩ := step_stays_busy h hs ht
    exact ⟨rfl, rfl, fun _ => rfl⟩
  case completion =>
    obtain rfl := exec_inv h
    obtain ⟨-, hoperand, -⟩ := s.complete_keepsInput (opOf i s.operand)
    exact hoperand

/-- Settles O48: a written byte is listed in IN, and by `step_inByte` only RST or the host's next write of it changes
what it reads as. -/
theorem hostReadsOfIn : Obligations.HostReadsOfIn := by
  refine ⟨fun s t i b hi h => ?written, fun s t i _ h hn hwin hacc => ?stable, fun s i hi h => ?unwritten,
    fun s i hi => hostReadIn_outOfRange hi s, fun _ _ _ => rfl, fun _ _ => rfl⟩
  case written =>
    have hb : s.busy = false := by
      cases hb : s.busy with
      | false => rfl
      | true => rw [hostWriteIn_busy i b hb] at h; cases h
    obtain rfl := Host.Outcome.next.inj ((hostWriteIn_inRange b hb hi).symm.trans h)
    rw [hostReadIn_inRange hi]
    exact State.inByte_of_read (Memory.read_write_same _ i b)
  case stable =>
    simp only [hostReadIn, step_inByte h hn hwin hacc]
  case unwritten => rw [hostReadIn_inRange hi, State.inByte, h, Option.getD_none]

/-- Settles O49: an idle read below N_OUT is `State.outByte`, which is the result's byte below OUT_LEN; the host never
writes OUT. -/
theorem hostReadsOfOut : Obligations.HostReadsOfOut := by
  refine ⟨fun s i hi => hostReadOut_outOfRange hi s, fun s i => hostReadOut_busy, fun s i b hi hb hl h => ?held,
    fun s i hi hb hl => ?beyond, fun j s t bs i _ h hout hlt hi => ?result, fun s t h hn => ?hostStep,
    fun _ _ => rfl, fun _ _ _ => rfl⟩
  case held => rw [hostReadOut_idle hi hb, State.outByte_of_read hl h]
  case beyond => rw [hostReadOut_idle hi hb, State.outByte_beyond hl]
  case result =>
    have hb : t.busy = false := by rw [exec_inv h, State.complete_busy]
    obtain ⟨rfl, hlen, -⟩ := hout
    rw [hostReadOut_idle hi hb, State.outBytes_getElem? (hlen ▸ hlt)]
  case hostStep =>
    obtain ⟨hbuf, hlen, -⟩ := hostTurn_keeps_out_resets ((step_host hn).symm.trans h)
    exact ⟨hlen, fun a => by rw [hbuf, State.spendTurn_outBuf]⟩

/-- Settles O45: register 0 is CTRL, register 2 is IN_LEN, and every other number ignores the write. -/
theorem hostRegisterWrites : Obligations.HostRegisterWrites := by
  refine fun s r v => ⟨?busy, ?ctrl, ?legal, ?tooLong, fun hc hl => hostWriteReg_ignored hc hl v s⟩
  case busy =>
    rintro hb (rfl | rfl)
    · exact hostWriteReg_ctrl_busy v hb
    · exact hostWriteReg_inLen_busy v hb
  case ctrl =>
    rintro hb rfl
    exact ⟨s.start v, hostWriteReg_ctrl_idle v hb, rfl, rfl, rfl⟩
  case legal =>
    rintro hb rfl hv
    exact ⟨_, hostWriteReg_inLen_legal hb hv, rfl, rfl⟩
  case tooLong =>
    rintro hb rfl hv
    exact hostWriteReg_inLen_ignored hb hv

/-- Settles O46: each register's read, busy and idle; the ranges of RES_U and RES_S come from the invariant when idle
and from the width of the free value when busy. -/
theorem hostRegisterReads : Obligations.HostRegisterReads := by
  refine fun s => ⟨hostReadReg_ctrl s, ?status, hostReadReg_inLen s, hostReadReg_results_idle, fun hb => ?busy,
    fun r hr => hostReadReg_unmapped hr s, fun _ => rfl, fun hs => ?ranges⟩
  case status =>
    refine ⟨if s.busy then Config.freeErr s.draws else s.err.code, ?_, fun hb => by simp [hb],
      fun hb => by simp [hb]⟩
    exact congrArg Nat.cast (statusWord_toNat s.busy _)
  case busy =>
    obtain ⟨hlen, hbcc, hu, hv⟩ := hostReadReg_results_busy hb
    exact ⟨hlen, ⟨_, hbcc, rfl⟩, hu, hv⟩
  case ranges =>
    obtain ⟨hu0, hu⟩ := hostReadReg_resU_bounds hs
    exact ⟨hu0, hu, hostReadReg_resS_bounds hs⟩

/-- Settles O47: the fault while busy, the ignored write out of range, and one byte written in range. -/
theorem hostWritesToIn : Obligations.HostWritesToIn := by
  refine fun s i b => ⟨hostWriteIn_busy i b, hostWriteIn_outOfRange b, fun hb hi => ?written⟩
  case written =>
    have hsame := Memory.read_write_same s.inBuf i b
    refine ⟨_, hostWriteIn_inRange b hb hi, hsame, State.inByte_of_read hsame, fun a ha => ?_, rfl, rfl⟩
    have hother := Memory.read_write_other s.inBuf b ha
    exact ⟨hother, State.inByte_congr hother rfl⟩

end Sys2Proof.Machine
end

section
/-! PROOFS. The command word and the wire formats (30_encoding.md): the decoder and the opcode table by OP value, an
illegal OP in flight, the request frame and the command text. First what the decoder, a row, a frame and a slice are, said once
each; then the statements. -/

namespace Sys2Proof.Machine

/-! ## OP values (R50, R51) -/

theorem op_toNat_range (i : Instr) : 1 ≤ i.op.toNat ∧ i.op.toNat ≤ 7 := by cases i <;> decide

/-- `decodeOp` is the inverse of `Instr.op`. -/
theorem decodeOp_eq_ok_iff {op : BitVec 4} {i : Instr} : decodeOp op = .ok i ↔ op = i.op := by
  constructor
  · cases i <;> revert op <;> decide
  · rintro rfl
    exact decodeOp_op i

/-- R51's case split of OP: illegal, or the OP of an operation. -/
theorem op_illegal_or_legal (op : BitVec 4) : (op = 0#4 ∨ 8 ≤ op.toNat) ∨ ∃ i : Instr, op = i.op := by
  have hdecode : (op = 0#4 ∨ 8 ≤ op.toNat) ∨ (decodeOp op).isOk = true := by
    revert op
    decide
  refine hdecode.imp_right fun hok => ?_
  cases h : decodeOp op with
  | ok i => exact ⟨i, decodeOp_eq_ok_iff.1 h⟩
  | error e => simp [h, Except.isOk, Except.toBool] at hok

/-! ## Command words -/

theorem decode_eq_ok_iff {w : Word} {i : Instr} : decode w = .ok i ↔ opField w = i.op := decodeOp_eq_ok_iff

/-- The decoder is total (R51): an illegal OP and IllegalOp, or an operation and its OP. -/
theorem decode_cases (w : Word) :
    (decode w = .error (.illegalOp (opField w)) ∧ (opField w = 0#4 ∨ 8 ≤ (opField w).toNat)) ∨
    ∃ i, decode w = .ok i ∧ 1 ≤ (opField w).toNat ∧ (opField w).toNat ≤ 7 := by
  rcases op_illegal_or_legal (opField w) with hill | ⟨i, hi⟩
  · exact .inl ⟨decodeOp_illegal hill, hill⟩
  · exact .inr ⟨i, decode_eq_ok_iff.2 hi, hi ▸ op_toNat_range i⟩

/-- Bits 31:4 are ignored (R49). -/
theorem decode_congr {w w' : Word} (h : opField w = opField w') : decode w = decode w' := by
  rw [decode, decode, h]

/-- The table's mask 0xF keeps the field OP (R62). -/
theorem and_opMask (w : Word) : w &&& 0x0000000F#32 = (opField w).setWidth 32 := by
  apply BitVec.eq_of_toNat_eq
  have hmask : w.toNat &&& 15 = w.toNat % 16 := Nat.and_two_pow_sub_one_eq_mod w.toNat 4
  have hword : w.toNat % 16 = w.toNat % 16 % 2 ^ 32 := by omega
  simpa [opField, hmask] using hword

theorem and_opMask_eq_encode_iff {w : Word} {i : Instr} : w &&& 0x0000000F#32 = encode i ↔ opField w = i.op := by
  rw [and_opMask, encode]
  refine ⟨fun h => ?_, congrArg _⟩
  simpa using congrArg (BitVec.setWidth 4) h

/-! ## The opcode table (R62, R63) -/

/-- An operation's row of the opcode table. -/
def opRow (i : Instr) : OpRow := ⟨i, encode i, 0x0000000F#32⟩

/-- The table holds the rows `opRow` and no other. -/
theorem mem_opTable_iff {r : OpRow} : r ∈ opTable ↔ ∃ i, r = opRow i := by
  constructor
  · intro h
    have hrow : ∀ r ∈ opTable, r = opRow r.instr := by decide
    exact ⟨r.instr, hrow r h⟩
  · rintro ⟨i, rfl⟩
    cases i <;> decide

/-- A row selects the words that decode to its operation. -/
theorem opRow_selects_iff {w : Word} {i : Instr} : (opRow i).selects w = true ↔ decode w = .ok i := by
  rw [decode_eq_ok_iff, ← and_opMask_eq_encode_iff, OpRow.selects, beq_iff_eq, opRow]

/-! ## The request frame and the command text (R52, R53) -/

theorem requestFrame_eq (txt : List Byte) :
    requestFrame txt = 0x02#8 :: (txt ++ [0x03#8, xorfold (txt ++ [0x03#8])]) := by
  simp [requestFrame, buildBcc, Config.stx, Config.etx]

/-- BUILD leaves the request frame of its operand in OUT, whatever bytes the operand has (R66). -/
theorem exec_build_outHolds {s : State} (h : s.inLen.toNat ≤ Config.nIn) :
    ∃ t, exec .build s = .next t ∧ t.OutHolds (requestFrame s.operand) := by
  refine ⟨_, exec_eq_complete .build s, s.complete_ok_outHolds _ rfl ?_⟩
  have hcap : Config.nIn + 3 < 2 ^ 32 := Config.nOut_lt
  have hlen : (requestFrame s.operand).length = s.inLen.toNat + 3 := by simp [requestFrame_eq]
  omega

/-- A slice beyond a leading field is a slice of what follows the field. -/
theorem slice_append_of_le {n : Nat} (v : Vector Byte n) (l : List Byte) {a : Nat} (h : n ≤ a) (b : Nat) :
    slice (v.toList ++ l) a b = slice l (a - n) (b - n) := by
  have hsub : b - n - (a - n) = b - a := by omega
  have hdrop : (v.toList ++ l).drop a = l.drop (a - n) := by
    rw [List.drop_append, List.drop_of_length_le (v.length_toList.trans_le h), v.length_toList, List.nil_append]
  rw [slice, slice, hdrop, hsub]

theorem slice_append_field {n : Nat} (v : Vector Byte n) (l : List Byte) : slice (v.toList ++ l) 0 n = v.toList :=
  List.take_left' v.length_toList

theorem slice_field {n : Nat} (v : Vector Byte n) : slice v.toList 0 n = v.toList :=
  List.take_of_length_le v.length_toList.le

/-! ## The statements -/

/-- Settles O1: the rows are `opRow` of the operations, and a row selects a word exactly when the decoder gives its
operation, so one row does for a legal OP and none for an illegal one. -/
theorem opcodeTableSelectsOneRow : Obligations.OpcodeTableSelectsOneRow := by
  refine ⟨fun r hr => ?pattern, fun w => ?selection⟩
  case pattern =>
    obtain ⟨i, rfl⟩ := mem_opTable_iff.1 hr
    exact ⟨rfl, rfl⟩
  case selection =>
    rcases decode_cases w with ⟨herr, hill⟩ | ⟨i, hok, hrange⟩
    · refine .inr ⟨fun r hr => Bool.eq_false_of_not_eq_true fun hsel => ?_, herr, hill⟩
      obtain ⟨i, rfl⟩ := mem_opTable_iff.1 hr
      exact absurd (herr.symm.trans (opRow_selects_iff.1 hsel)) nofun
    · refine .inl ⟨⟨opRow i, mem_opTable_iff.2 ⟨i, rfl⟩, opRow_selects_iff.2 hok, fun r hr hsel => ?_, hok⟩,
        hrange⟩
      obtain ⟨j, rfl⟩ := mem_opTable_iff.1 hr
      rw [Except.ok.inj ((opRow_selects_iff.1 hsel).symm.trans hok)]

/-- Settles O4: an illegal OP in flight completes with an error result, a legal one runs `exec`; the decoder is the
inverse of `Instr.op` on the field OP. -/
theorem illegalCommandsCompleteWithIllegalOp : Obligations.IllegalCommandsCompleteWithIllegalOp := by
  refine ⟨fun w hill s hn hb hp => ?illegal, fun i s hn hb hp => step_codec_run hn hb hp (decodeOp_op i), rfl,
    fun i w => decode_eq_ok_iff.symm, fun w w' => decode_congr, fun w => ?total⟩
  case illegal =>
    exact ⟨_, step_codec_illegal hn hb hp hill, State.complete_err _ .illegalOp, rfl⟩
  case total =>
    rcases decode_cases w with herr | ⟨i, hok, hrange⟩
    · exact .inl herr
    · exact .inr ⟨i, hok, fun j hj => Except.ok.inj (hj.symm.trans hok), hrange⟩

/-- Settles O20: the frame is STX, the text, ETX and the check character, so byte k + 1 is the text's byte k. -/
theorem requestFrameLayout : Obligations.RequestFrameLayout := by
  intro txt
  have hlen : (requestFrame txt).length = txt.length + 3 := by simp [requestFrame_eq]
  rw [requestFrame_eq] at hlen ⊢
  refine ⟨hlen, rfl, fun k hk => ?text, ?etx, ?bcc, fun h => by rw [hlen, h]⟩
  case text => rw [List.getElem?_cons_succ, List.getElem?_append_left hk]
  case etx => rw [List.getElem?_cons_succ, List.getElem?_append_right le_rfl, Nat.sub_self]; rfl
  case bcc => rw [List.getElem?_cons_succ, List.getElem?_append_right (by omega), Nat.add_sub_cancel_left]; rfl

/-- Settles O21: a field's slice is found by passing over the fields before it, one width at a time. -/
theorem commandTextLayout : Obligations.CommandTextLayout := by
  refine ⟨fun s hs => ?packed, fun c => ?fields⟩
  case packed =>
    obtain ⟨t, ht, hout, -⟩ := exec_build_outHolds hs
    refine ⟨t, ht, ?_⟩
    rw [hout, requestFrame_eq, xorfold_append_singleton]
    simp
  case fields =>
    have hlen : (commandBytes c).length = 21 := by simp [commandBytes]
    refine ⟨hlen, ?_⟩
    simp [commandBytes, slice_append_of_le, slice_append_field, slice_field]

end Sys2Proof.Machine
end

section
/-! PROOFS. The request side (40_request.md): the checksum, the frame BUILD packs, and where a receiver delimits it.
First what XOR, a frame's slices and the two operations give, said once each; then the statements. -/

namespace Sys2Proof.Machine

/-! ## Checksums and slices (R8, R12) -/

/-- A sequence followed by its own XOR gives 0 (R65). -/
theorem xorfold_append_self (s : List Byte) : xorfold (s ++ [xorfold s]) = 0x00#8 := by
  rw [xorfold_append_singleton, BitVec.xor_self]

/-- A slice that leaves out the first byte alone. -/
theorem slice_cons_one (b : Byte) (l : List Byte) (k : Nat) : slice (b :: l) 1 (k + 1) = l.take k := rfl

theorem first_append_left {s : List Byte} {v : Byte} {e : Nat} (h : first s v = some e) (t : List Byte) :
    first (s ++ t) v = some e := by
  have he : e < s.length := first_lt_length h
  obtain ⟨hat, hbefore⟩ := first_eq_some_iff.1 h
  rw [first_eq_some_iff, List.getElem?_append_left he, List.take_append_of_le_length he.le]
  exact ⟨hat, hbefore⟩

/-! ## The request frame and its slices (R52, R66) -/

/-- R66's formula, the check character as an XOR with ETX. -/
theorem requestFrame_eq_xorfold (c : List Byte) :
    requestFrame c = [0x02#8] ++ c ++ [0x03#8] ++ [xorfold c ^^^ 0x03#8] := by
  rw [requestFrame, buildBcc_eq]
  rfl

/-- `requestFrame_eq`, the bytes that the check character covers kept together. -/
theorem requestFrame_eq_cons (c : List Byte) :
    requestFrame c = 0x02#8 :: (c ++ [0x03#8] ++ [xorfold (c ++ [0x03#8])]) := rfl

/-- The frame without its STX and its check character. -/
theorem slice_requestFrame_text (c : List Byte) : slice (requestFrame c) 1 (c.length + 2) = c ++ [0x03#8] := by
  rw [requestFrame_eq_cons, slice_cons_one]
  exact List.take_left' (by simp)

/-- The frame without its STX. -/
theorem slice_requestFrame_tail (c : List Byte) :
    slice (requestFrame c) 1 (c.length + 3) = c ++ [0x03#8] ++ [xorfold (c ++ [0x03#8])] := by
  rw [requestFrame_eq_cons, slice_cons_one]
  exact List.take_of_length_le (by simp)

/-! ## Where a receiver delimits the frame (R68, R69) -/

theorem not_mem_etx_of_commandTextOk {c : List Byte} (h : commandTextOk c = true) : 0x03#8 ∉ c := by
  intro hmem
  have hok : commandByteOk 0x03#8 = true := List.all_eq_true.1 h _ hmem
  exact absurd hok (by decide)

/-- A receiver takes the first ETX of the text and the frame's own ETX for the frame's end, and what stands before it
for the text. -/
theorem requestFrame_delimited {c : List Byte} {k : Nat} (h : first (c ++ [0x03#8]) 0x03#8 = some k) :
    first (requestFrame c) 0x03#8 = some (k + 1) ∧ frameBody (requestFrame c) = .ok (c.take k) := by
  have hk : k < (c ++ [0x03#8]).length := first_lt_length h
  have hle : k ≤ c.length := by simpa [Nat.lt_succ_iff] using hk
  have hetx : first (requestFrame c) 0x03#8 = some (k + 1) := by
    rw [requestFrame_eq_cons, first, if_neg (by decide), first_append_left h]
    rfl
  refine ⟨hetx, ?_⟩
  rw [frameBody_ok rfl hetx, requestFrame_eq_cons, slice_cons_one, List.append_assoc,
    List.take_append_of_le_length hle]

/-! ## The operations -/

/-- BCC commits the XOR of its operand and nothing else (R65). -/
theorem exec_bcc_spec (s : State) : ∃ t, exec .bcc s = .next t ∧ t.resBcc = xorfold s.operand ∧
    t.Completed .ok ∧ KeepsInput s t ∧ KeepsOut s t ∧ KeepsNum s t :=
  ⟨_, exec_eq_complete .bcc s, s.complete_ok_bcc _, s.complete_ok_completed _, s.complete_keepsInput _,
    s.complete_ok_keepsOut _ rfl, s.complete_ok_num _⟩

/-- BUILD commits the request frame of its operand with its check character, and nothing else (R66). -/
theorem exec_build_spec {s : State} (h : s.inLen.toNat ≤ Config.nIn) :
    ∃ t, exec .build s = .next t ∧ t.OutHolds (requestFrame s.operand) ∧ t.resBcc = xorfold s.operand ^^^ 0x03#8 ∧
      t.Completed .ok ∧ KeepsInput s t ∧ KeepsNum s t := by
  obtain ⟨t, ht, hout⟩ := exec_build_outHolds h
  obtain rfl := exec_inv ht
  exact ⟨_, ht, hout, (s.complete_ok_bcc _).trans (buildBcc_eq _), s.complete_ok_completed _,
    s.complete_keepsInput _, s.complete_ok_num _⟩

/-! ## The statements -/

/-- Settles O16: BCC stages RES_BCC alone, and XOR of a byte with itself is 0. -/
theorem bccWritesTheChecksum : Obligations.BccWritesTheChecksum :=
  ⟨exec_bcc_spec, rfl, xorfold_nil, xorfold_append_self, xorfold_append_singleton, by decide⟩

/-- Settles O17: BUILD stages the frame and its check character; N_OUT = N_IN + 3 leaves room for STX, ETX and the check
character. -/
theorem buildWritesTheRequestFrame : Obligations.BuildWritesTheRequestFrame := by
  refine ⟨fun s hs => ?frame, fun s hs => ?empty, rfl, by decide⟩
  case frame =>
    obtain ⟨t, ht, hout, hbcc, hdone, hin, hnum⟩ := exec_build_spec hs
    have hlen : t.outLen.toNat = s.inLen.toNat + 3 := by
      obtain ⟨-, hlen, -⟩ := hout
      obtain ⟨hframe, -⟩ := requestFrameLayout s.operand
      rw [hlen, hframe, State.operand_length]
    have hfits : t.outLen.toNat ≤ Config.nOut := by
      rw [hlen, Config.nOut_eq]
      omega
    exact ⟨t, ht, requestFrame_eq_xorfold _ ▸ hout, hlen, hfits, hbcc, hdone, hin, hnum⟩
  case empty =>
    have hoperand : s.operand = [] := List.eq_nil_of_length_eq_zero (by simp [hs])
    obtain ⟨t, ht, hout, -⟩ := exec_build_spec (s := s) (by simp [hs])
    rw [hoperand] at hout
    exact ⟨t, ht, hout⟩

/-- Settles O18: the check character is the XOR of the frame's bytes between STX and itself. -/
theorem builtFramesCloseUnderXor : Obligations.BuiltFramesCloseUnderXor := by
  intro s b hs h f n
  have hf : f = requestFrame s.operand := by
    obtain ⟨t, ht, ⟨hout, -⟩, -⟩ := exec_build_spec hs
    obtain rfl : t = b := Host.Outcome.next.inj (ht.symm.trans h)
    exact hout
  have htail : xorfold (slice f 1 (n + 3)) = 0x00#8 := by
    rw [hf, slice_requestFrame_tail, xorfold_append_self]
  refine ⟨htail, fun u hu => ?wholeTail, fun u hu => ?withoutBcc⟩
  case wholeTail =>
    obtain ⟨t, ht, hbcc, -⟩ := exec_bcc_spec u
    exact ⟨t, ht, by rw [hbcc, hu, htail]⟩
  case withoutBcc =>
    obtain ⟨t, ht, hbcc, -⟩ := exec_bcc_spec u
    obtain ⟨-, -, -, -, hlast, -⟩ := requestFrameLayout s.operand
    exact ⟨t, ht, by rw [hbcc, hu, hf, slice_requestFrame_text, hlast]⟩

/-- Settles O19: the receiver stops at the first ETX of the text and the frame's own ETX: at the text's end when the text
has none, else at the embedded one. -/
theorem buildDoesNotCheckItsOperand : Obligations.BuildDoesNotCheckItsOperand := by
  refine ⟨fun s hs => ?formula, fun c hc => ?ownEtx, fun c k hk => ?embeddedEtx⟩
  case formula =>
    obtain ⟨t, ht, ⟨hout, -⟩, -, ⟨herr, -⟩, -⟩ := exec_build_spec hs
    exact ⟨t, ht, herr, hout⟩
  case ownEtx =>
    have hfirst : first (c ++ [0x03#8]) 0x03#8 = some c.length := by
      rw [first_append_of_not_mem (not_mem_etx_of_commandTextOk hc)]
      simp [first]
    obtain ⟨hetx, hbody⟩ := requestFrame_delimited hfirst
    exact ⟨hetx, by rw [hbody, List.take_length]⟩
  case embeddedEtx => exact requestFrame_delimited (first_append_left hk _)

end Sys2Proof.Machine
end

section
/-! PROOFS. The response side (41_response.md): VALIDATE, BCCCHK and EXTRACT, and what their rules say of PIPE's first two
stages. First what a frame, a body and the operations give, said once each; then the statements. -/

namespace Sys2Proof.Machine

/-! ## Frames and bodies (R55, R56, R69, R73) -/

theorem frameBody_responseFrame {b : List Byte} (hb : 0x03#8 ∉ b) (tail : List Byte) :
    frameBody (responseFrame b ++ tail) = .ok b := frameBody_frame hb tail

theorem frameEnd_eq_ok {s : List Byte} {e : Nat} (h : frameEnd s = .ok e) :
    s.head? = some 0x02#8 ∧ first s 0x03#8 = some e := by
  rw [frameEnd_eq] at h
  split at h
  next => cases h
  next hstx =>
    split at h
    next => cases h
    next hetx => exact ⟨not_not.1 hstx, hetx.trans (congrArg some (Except.ok.inj h))⟩

theorem frameEnd_ne_error_ok (s : List Byte) : frameEnd s ≠ .error .ok := by
  rw [frameEnd_eq]
  split
  next => nofun
  next => split <;> nofun

theorem frameBody_ne_error_ok (s : List Byte) : frameBody s ≠ .error .ok := by
  rw [frameBody]
  split
  next e he => exact fun h => frameEnd_ne_error_ok s (Except.error.inj h ▸ he)
  next => nofun

theorem dataSection_ne_error_ok (s : List Byte) : dataSection s ≠ .error .ok := by
  rw [dataSection_eq]
  split <;> nofun

theorem reading_ne_error_ok (s : List Byte) : reading s ≠ .error .ok := by
  rw [reading]
  split
  next => nofun
  next => split <;> nofun

/-- A frame's body ends before the first ETX, so it holds none. -/
theorem frameBody_no_etx {s b : List Byte} (h : frameBody s = .ok b) : 0x03#8 ∉ b := by
  rw [frameBody] at h
  split at h
  next => cases h
  next e he =>
    obtain rfl := Except.ok.inj h
    obtain ⟨-, hetx⟩ := frameEnd_eq_ok he
    obtain ⟨-, hbefore⟩ := first_eq_some_iff.1 hetx
    rw [slice, ← List.drop_take]
    exact fun hmem => hbefore (List.mem_of_mem_drop hmem)

/-- The data section of a body is what follows its header, whatever the header holds (R75). -/
theorem dataSection_bodyOf (h : Vector Byte 13) (d : List Byte) :
    dataSection (bodyOf h d) = if d.length < 3 then .error .frameTooShort else .ok d := by
  have hlen : (bodyOf h d).length < 16 ↔ d.length < 3 := by
    simp [bodyOf]
    omega
  have hdrop : (bodyOf h d).drop 13 = d := List.drop_left' h.length_toList
  rw [dataSection_eq, hdrop]
  simp only [hlen]

/-! ## The operations as functions of their operand -/

theorem opValidate_of_error {s : List Byte} {e : ErrCode} (h : frameBody s = .error e) : opValidate s = .err e := by
  rw [opValidate, h]

theorem opValidate_of_body {s b : List Byte} (h : frameBody s = .ok b) : opValidate s = .ok { out := some b } := by
  rw [opValidate, h]

theorem opExtract_of_error {s : List Byte} {e : ErrCode} (h : dataSection s = .error e) : opExtract s = .err e := by
  rw [opExtract, h]

theorem opExtract_of_data {s d : List Byte} (h : dataSection s = .ok d) : opExtract s = .ok { out := some d } := by
  rw [opExtract, h]

/-- EXTRACT reads nothing of a body but its data section. -/
theorem opExtract_congr {s s' : List Byte} (hd : dataSection s = dataSection s') : opExtract s = opExtract s' := by
  rw [opExtract, opExtract, hd]

/-- PIPE reads nothing of a frame but its body's data section. -/
theorem opPipe_congr {s s' b b' : List Byte} (hb : frameBody s = .ok b) (hb' : frameBody s' = .ok b')
    (hd : dataSection b = dataSection b') : opPipe s = opPipe s' := by
  rw [opPipe, opPipe, hb, hb']
  simp only [hd]

theorem opPipe_eq_ok {s : List Byte} {w : Writes} (h : opPipe s = .ok w) :
    ∃ b d uv, frameBody s = .ok b ∧ dataSection b = .ok d ∧ reading d = .ok uv ∧
      w = { out := some d, num := some uv } := by
  rw [opPipe] at h
  split at h
  next => cases h
  next b hb =>
    split at h
    next => cases h
    next d hd =>
      split at h
      next => cases h
      next uv huv => exact ⟨b, d, uv, hb, hd, huv, (OpResult.ok.inj h).symm⟩

theorem opPipe_ne_err_ok (s : List Byte) : opPipe s ≠ .err .ok := by
  intro h
  rw [opPipe] at h
  split at h
  next e he => exact frameBody_ne_error_ok s (OpResult.err.inj h ▸ he)
  next b hb =>
    split at h
    next e he => exact dataSection_ne_error_ok b (OpResult.err.inj h ▸ he)
    next d hd =>
      split at h
      next e he => exact reading_ne_error_ok d (OpResult.err.inj h ▸ he)
      next => cases h

section
variable {s : List Byte} {e : Nat}

theorem opBccchk_of_error {c : ErrCode} (h : frameEnd s = .error c) : opBccchk s = .err c := by
  rw [opBccchk, h]

theorem opBccchk_absent (h : frameEnd s = .ok e) (hb : s[e + 1]? = none) : opBccchk s = .err .bccAbsent := by
  simp only [opBccchk, h, hb]

theorem opBccchk_mismatch {b : Byte} (h : frameEnd s = .ok e) (hb : s[e + 1]? = some b)
    (hne : b ≠ xorfold (slice s 1 (e + 1))) : opBccchk s = .err .bccMismatch := by
  simp only [opBccchk, h, hb]
  exact if_pos hne

theorem opBccchk_match (h : frameEnd s = .ok e) (hb : s[e + 1]? = some (xorfold (slice s 1 (e + 1)))) :
    opBccchk s = .ok { bcc := some (xorfold (slice s 1 (e + 1))) } := by
  simp only [opBccchk, h, hb]
  exact if_neg (not_not.2 rfl)

end

/-! ## Completions -/

/-- An operation that finds an error in its operand raises it (R11). -/
theorem exec_raises {i : Instr} {s : State} {e : ErrCode} (h : opOf i s.operand = .err e) :
    ∃ t, exec i s = .next t ∧ Raises s t e :=
  ⟨_, exec_eq_complete i s, h ▸ s.complete_err e⟩

theorem exec_of_ok {i : Instr} {s : State} {w : Writes} (h : opOf i s.operand = .ok w) :
    exec i s = .next (s.complete (.ok w)) := by
  rw [exec_eq_complete, h]

/-- A staged result no longer than the operand fits OUT_LEN. -/
theorem State.complete_ok_outHolds_of_le {s : State} {w : Writes} {bs : List Byte} (hw : w.out = some bs)
    (hlen : bs.length ≤ s.operand.length) : (s.complete (.ok w)).OutHolds bs := by
  have hword : s.inLen.toNat < 2 ^ 32 := s.inLen.isLt
  rw [State.operand_length] at hlen
  exact s.complete_ok_outHolds w hw (by omega)

theorem State.OutHolds.outLen_eq {t : State} {bs : List Byte} (h : t.OutHolds bs) : t.outLen.toNat = bs.length := by
  obtain ⟨-, hlen, -⟩ := h
  exact hlen

/-- An operation that stages a result in OUT alone commits it and changes nothing else. -/
theorem exec_commits_out {i : Instr} {s : State} {bs : List Byte} (h : opOf i s.operand = .ok { out := some bs })
    (hlen : bs.length ≤ s.operand.length) :
    ∃ t, exec i s = .next t ∧ t.OutHolds bs ∧ t.Completed .ok ∧ KeepsInput s t ∧ KeepsBcc s t ∧ KeepsNum s t :=
  ⟨_, exec_of_ok h, State.complete_ok_outHolds_of_le rfl hlen, s.complete_ok_completed _,
    s.complete_keepsInput _, s.complete_ok_bcc _, s.complete_ok_num _⟩

theorem exec_validate_of_body {s : State} {b : List Byte} (h : frameBody s.operand = .ok b) :
    ∃ t, exec .validate s = .next t ∧ t.OutHolds b ∧ t.Completed .ok ∧ KeepsInput s t ∧ KeepsBcc s t ∧ KeepsNum s t :=
  exec_commits_out (opValidate_of_body h) (by have := frameBody_length h; omega)

theorem exec_extract_of_data {s : State} {d : List Byte} (h : dataSection s.operand = .ok d) :
    ∃ t, exec .extract s = .next t ∧ t.OutHolds d ∧ t.Completed .ok ∧ KeepsInput s t ∧ KeepsBcc s t ∧ KeepsNum s t :=
  exec_commits_out (opExtract_of_data h) (by have := dataSection_length h; omega)

/-- VALIDATE gives back the body it was framed with (R70), an STX in it included (R75). -/
theorem exec_validate_frame {s : State} {b tail : List Byte} (hb : 0x03#8 ∉ b)
    (hs : s.operand = responseFrame b ++ tail) : ∃ t, exec .validate s = .next t ∧ t.err = .ok ∧ t.outBytes = b := by
  obtain ⟨t, ht, ⟨hout, -⟩, ⟨herr, -⟩, -⟩ :=
    exec_validate_of_body ((congrArg frameBody hs).trans (frameBody_responseFrame hb tail))
  exact ⟨t, ht, herr, hout⟩

theorem exec_bccchk_match {s : State} {e : Nat} (h : frameEnd s.operand = .ok e)
    (hb : s.operand[e + 1]? = some (xorfold (slice s.operand 1 (e + 1)))) :
    ∃ t, exec .bccchk s = .next t ∧ t.resBcc = xorfold (slice s.operand 1 (e + 1)) ∧ t.Completed .ok ∧
      KeepsInput s t ∧ KeepsOut s t ∧ KeepsNum s t :=
  ⟨_, exec_of_ok (opBccchk_match h hb), s.complete_ok_bcc _, s.complete_ok_completed _,
    s.complete_keepsInput _, s.complete_ok_keepsOut _ rfl, s.complete_ok_num _⟩

/-- The same result of an operation leaves the same ERR. -/
theorem exec_err_congr {i : Instr} {s s' : State} (h : opOf i s.operand = opOf i s'.operand) :
    ∃ t t', exec i s = .next t ∧ exec i s' = .next t' ∧ t.err = t'.err := by
  refine ⟨_, _, exec_eq_complete i s, exec_eq_complete i s', ?_⟩
  rw [h]
  cases opOf i s'.operand <;> rfl

/-! ## What a success tells of the operand -/

section
variable {s t : State}

theorem exec_validate_ok_inv (h : exec .validate s = .next t) (hok : t.err = .ok) :
    ∃ b, frameBody s.operand = .ok b ∧ t.OutHolds b := by
  obtain rfl := exec_inv h
  cases hb : frameBody s.operand with
  | error e =>
    rw [opOf, opValidate_of_error hb] at hok
    obtain rfl : e = .ok := hok
    exact absurd hb (frameBody_ne_error_ok _)
  | ok b =>
    obtain ⟨u, hu, hout, -⟩ := exec_validate_of_body hb
    exact ⟨b, rfl, exec_inv hu ▸ hout⟩

theorem exec_extract_ok_inv (h : exec .extract s = .next t) (hok : t.err = .ok) :
    ∃ d, dataSection s.operand = .ok d ∧ t.OutHolds d := by
  obtain rfl := exec_inv h
  cases hd : dataSection s.operand with
  | error e =>
    rw [opOf, opExtract_of_error hd] at hok
    obtain rfl : e = .ok := hok
    exact absurd hd (dataSection_ne_error_ok _)
  | ok d =>
    obtain ⟨u, hu, hout, -⟩ := exec_extract_of_data hd
    exact ⟨d, rfl, exec_inv hu ▸ hout⟩

theorem exec_pipe_ok_inv (h : exec .pipe s = .next t) (hok : t.err = .ok) :
    ∃ b d, frameBody s.operand = .ok b ∧ dataSection b = .ok d ∧ reading d = .ok (t.resU, t.resS) ∧ t.OutHolds d := by
  obtain rfl := exec_inv h
  rw [opOf] at hok ⊢
  cases hr : opPipe s.operand with
  | err e =>
    rw [hr] at hok
    obtain rfl : e = .ok := hok
    exact absurd hr (opPipe_ne_err_ok _)
  | ok w =>
    obtain ⟨b, d, uv, hb, hd, huv, rfl⟩ := opPipe_eq_ok hr
    have hblen := frameBody_length hb
    have hdlen := dataSection_length hd
    exact ⟨b, d, hb, hd, huv, State.complete_ok_outHolds_of_le rfl (by omega)⟩

end

/-! ## What the completions of two operands share -/

section
variable {s s' : State}

theorem exec_extract_congr (hd : dataSection s.operand = dataSection s'.operand) :
    ∃ t t', exec .extract s = .next t ∧ exec .extract s' = .next t' ∧ t.err = t'.err ∧
      (t.err = .ok → t.outBytes = t'.outBytes) := by
  obtain ⟨t, t', ht, ht', herr⟩ := exec_err_congr (i := .extract) (opExtract_congr hd)
  refine ⟨t, t', ht, ht', herr, fun hok => ?_⟩
  obtain ⟨d, hdata, hout, -⟩ := exec_extract_ok_inv ht hok
  obtain ⟨d', hdata', hout', -⟩ := exec_extract_ok_inv ht' (herr ▸ hok)
  rw [hout, hout']
  exact Except.ok.inj (hdata.symm.trans (hd.trans hdata'))

theorem exec_pipe_congr {b b' : List Byte} (hb : frameBody s.operand = .ok b) (hb' : frameBody s'.operand = .ok b')
    (hd : dataSection b = dataSection b') :
    ∃ t t', exec .pipe s = .next t ∧ exec .pipe s' = .next t' ∧ t.err = t'.err ∧
      (t.err = .ok → t.outBytes = t'.outBytes ∧ t.resU = t'.resU ∧ t.resS = t'.resS) := by
  obtain ⟨t, t', ht, ht', herr⟩ := exec_err_congr (i := .pipe) (opPipe_congr hb hb' hd)
  refine ⟨t, t', ht, ht', herr, fun hok => ?_⟩
  obtain ⟨x, d, hx, hdata, hnum, hout, -⟩ := exec_pipe_ok_inv ht hok
  obtain ⟨x', d', hx', hdata', hnum', hout', -⟩ := exec_pipe_ok_inv ht' (herr ▸ hok)
  obtain rfl := Except.ok.inj (hb.symm.trans hx)
  obtain rfl := Except.ok.inj (hb'.symm.trans hx')
  obtain rfl := Except.ok.inj (hdata.symm.trans (hd.trans hdata'))
  have hpair : (t.resU, t.resS) = (t'.resU, t'.resS) := Except.ok.inj (hnum.symm.trans hnum')
  exact ⟨hout.trans hout'.symm, congrArg Prod.fst hpair, congrArg Prod.snd hpair⟩

end

/-! ## The frame BUILD makes, as BCCCHK reads it (R72) -/

theorem first_append_etx {c : List Byte} (h : 0x03#8 ∉ c) : first (c ++ [0x03#8]) 0x03#8 = some c.length := by
  rw [first_append_of_not_mem h]
  simp [first]

theorem frameEnd_requestFrame {c : List Byte} {k : Nat} (h : first (c ++ [0x03#8]) 0x03#8 = some k) :
    frameEnd (requestFrame c) = .ok (k + 1) := by
  obtain ⟨hetx, -⟩ := requestFrame_delimited h
  exact frameEnd_ok rfl hetx

/-- The bytes up to an embedded ETX, the frame's STX left out. -/
theorem slice_requestFrame_embedded {c : List Byte} {k : Nat} (hk : k < c.length) :
    slice (requestFrame c) 1 (k + 2) = c.take (k + 1) := by
  rw [requestFrame_eq_cons, slice_cons_one, List.append_assoc, List.take_append_of_le_length hk]

/-! ## The statements -/

/-- Settles O22: the three outcomes of the boundary check, and what VALIDATE stages when it passes. -/
theorem validateStripsTheFrame : Obligations.ValidateStripsTheFrame := by
  refine ⟨fun s hstx => exec_raises (opValidate_of_error (frameBody_missingStx hstx)),
    fun s hstx hetx => exec_raises (opValidate_of_error (frameBody_missingEtx hstx hetx)),
    fun s e hstx he => ?stripped, rfl, by decide, rfl⟩
  case stripped =>
    obtain ⟨t, ht, hout, hdone, hin, hbcc, hnum⟩ := exec_validate_of_body (frameBody_ok hstx he)
    have hpos : 1 ≤ e := first_etx_pos hstx he
    have hlt : e < s.operand.length := first_lt_length he
    have hlen : t.outLen.toNat = e - 1 := by
      rw [hout.outLen_eq, slice_length]
      omega
    exact ⟨t, ht, hout, hlen, hpos, hdone, hin, hbcc, hnum⟩

/-- Settles O23: VALIDATE inverts framing, and what it gives has no ETX, so it can be framed again. -/
theorem validatorLaws : Obligations.ValidatorLaws := by
  obtain ⟨hmissingStx, hmissingEtx, -⟩ := validateStripsTheFrame
  refine ⟨fun b tail s hb _ hs => exec_validate_frame hb hs, fun s t u h hok hu => ?again, fun s hs => ?noStx,
    fun s hstx hetx => ?noEtx⟩
  case again =>
    obtain ⟨b, hb, hout, -⟩ := exec_validate_ok_inv h hok
    rw [hout] at hu ⊢
    exact exec_validate_frame (tail := []) (frameBody_no_etx hb) (by rw [hu, List.append_nil])
  case noStx =>
    have hstx : s.operand.head? ≠ some 0x02#8 := hs.elim (fun hnil => by simp [hnil]) id
    obtain ⟨t, ht, ⟨herr, -⟩, -⟩ := hmissingStx s hstx
    exact ⟨t, ht, herr⟩
  case noEtx =>
    obtain ⟨t, ht, ⟨herr, -⟩, -⟩ := hmissingEtx s hstx hetx
    exact ⟨t, ht, herr⟩

/-- Settles O24: behind the boundary check, the byte after the first ETX is absent, wrong or right. -/
theorem bccchkChecksTheTrailingByte : Obligations.BccchkChecksTheTrailingByte := by
  refine ⟨fun s hstx => exec_raises (opBccchk_of_error (frameEnd_missingStx hstx)),
    fun s hstx hetx => exec_raises (opBccchk_of_error (frameEnd_missingEtx hstx hetx)),
    fun s e hstx he => ?trailingByte, rfl, by decide⟩
  case trailingByte =>
    have hend := frameEnd_ok hstx he
    exact ⟨fun hlen => exec_raises (opBccchk_absent hend (List.getElem?_eq_none hlen)),
      fun b hb hne => exec_raises (opBccchk_mismatch hend hb hne), exec_bccchk_match hend⟩

/-- Settles O25: BCCCHK stops at the first ETX of the text and the frame's own ETX. At the frame's own the next byte is the
check character; at an embedded one it is some byte of the frame. -/
theorem bccchkAcceptsBuiltFrames : Obligations.BccchkAcceptsBuiltFrames := by
  intro s b u hs hbuild hu
  have hframe : u.operand = requestFrame s.operand := by
    obtain ⟨t, ht, hout, -⟩ := exec_build_outHolds (s := s) (by omega)
    obtain rfl : t = b := Host.Outcome.next.inj (ht.symm.trans hbuild)
    exact hu.trans hout
  obtain ⟨hlen, -, -, -, hlast, -⟩ := requestFrameLayout s.operand
  rw [← hframe] at hlen hlast
  refine ⟨fun hetx => ?ownEtx, fun k hk => ?embeddedEtx⟩
  case ownEtx =>
    have hend := hframe ▸ frameEnd_requestFrame (first_append_etx hetx)
    have hcovered : slice u.operand 1 (s.operand.length + 2) = s.operand ++ [0x03#8] := by
      rw [hframe, slice_requestFrame_text]
    obtain ⟨t, ht, hbcc, ⟨herr, -⟩, -⟩ := exec_bccchk_match hend (hcovered ▸ hlast)
    exact ⟨t, ht, herr, by rw [hbcc, hcovered]⟩
  case embeddedEtx =>
    have hend := hframe ▸ frameEnd_requestFrame (first_append_left hk [0x03#8])
    have hcovered : slice u.operand 1 (k + 2) = s.operand.take (k + 1) := by
      rw [hframe, slice_requestFrame_embedded (first_lt_length hk)]
    have hlt : k + 2 < u.operand.length := by
      have := first_lt_length hk
      omega
    have hbyte : u.operand[k + 2]? = some u.operand[k + 2] := List.getElem?_eq_getElem hlt
    by_cases hmatch : u.operand[k + 2] = xorfold (s.operand.take (k + 1))
    · obtain ⟨t, ht, -, ⟨herr, -⟩, -⟩ := exec_bccchk_match hend (by rw [hbyte, hcovered, hmatch])
      exact ⟨t, ht, by rw [herr, if_pos (hbyte.trans (congrArg some hmatch))]⟩
    · obtain ⟨t, ht, ⟨herr, -⟩, -⟩ := exec_raises (i := .bccchk) (opBccchk_mismatch hend hbyte (by rwa [hcovered]))
      exact ⟨t, ht, by rw [herr, if_neg (by simpa [hbyte] using hmatch)]⟩

/-- Settles O26: EXTRACT is its length check and the bytes from offset 13. -/
theorem extractTakesTheDataSection : Obligations.ExtractTakesTheDataSection := by
  refine ⟨fun s hshort => exec_raises (opExtract_of_error (by rw [dataSection_eq, if_pos hshort])),
    fun s hlen => ?data, rfl, opExtract_of_data (by decide), rfl⟩
  case data =>
    have hdata : dataSection s.operand = .ok (s.operand.drop 13) := by rw [dataSection_eq, if_neg (by omega)]
    obtain ⟨t, ht, hout, hkeeps⟩ := exec_extract_of_data hdata
    exact ⟨t, ht, hout, hout.outLen_eq.trans List.length_drop, hkeeps⟩

/-- Settles O27: a body has at least 16 bytes, 13 more than its data section, and its frame two bytes more. -/
theorem dataSectionsHaveThreeBytes : Obligations.DataSectionsHaveThreeBytes := by
  refine ⟨fun s t h hok => ?extract, fun s t h hok => ?pipe, fun s hmin hmax => ?extractRange,
    fun s t hs h hok => ?pipeMax⟩
  case extract =>
    obtain ⟨d, hd, hout⟩ := exec_extract_ok_inv h hok
    have hlen := hout.outLen_eq
    have hbody := dataSection_length hd
    omega
  case pipe =>
    obtain ⟨b, d, -, hd, -, hout⟩ := exec_pipe_ok_inv h hok
    have hlen := hout.outLen_eq
    have hbody := dataSection_length hd
    omega
  case extractRange =>
    obtain ⟨-, hextract, -⟩ := extractTakesTheDataSection
    obtain ⟨t, ht, -, hlen, -⟩ := hextract s hmin
    exact ⟨t, ht, by omega, by omega⟩
  case pipeMax =>
    obtain ⟨b, d, hb, hd, -, hout⟩ := exec_pipe_ok_inv h hok
    have hlen := hout.outLen_eq
    have hframe := frameBody_length hb
    have hbody := dataSection_length hd
    rw [State.operand_length] at hframe
    omega

/-- Settles O28: the data section of a body does not depend on its header, and VALIDATE looks for an STX at the first
byte alone. -/
theorem headerAndEmbeddedStxAreNotRead : Obligations.HeaderAndEmbeddedStxAreNotRead := by
  refine ⟨fun h h' d s s' hs hs' => ?extract, fun h h' d tail s s' hh hh' hd hs hs' => ?pipe,
    fun b c s hb hc hs => ?embeddedStx⟩
  case extract =>
    refine exec_extract_congr ?_
    rw [hs, hs', dataSection_bodyOf, dataSection_bodyOf]
  case pipe =>
    have hbody : frameBody s.operand = .ok (bodyOf h d) := by
      rw [hs, frameBody_responseFrame (by simp [bodyOf, hh, hd])]
    have hbody' : frameBody s'.operand = .ok (bodyOf h' d) := by
      rw [hs', frameBody_responseFrame (by simp [bodyOf, hh', hd])]
    refine exec_pipe_congr hbody hbody' ?_
    rw [dataSection_bodyOf, dataSection_bodyOf]
  case embeddedStx =>
    exact exec_validate_frame (tail := []) (by simp [hb, hc]) (by rw [hs, List.append_nil])

end Sys2Proof.Machine
end

section
/-! PROOFS. The decoder, the pipeline and the host's decimal string (42_decode.md): DECODE, PIPE, DecodedReading and
render6. First what the two operations and the digits of `dec` are, said once each; then the statements. -/

namespace Sys2Proof.Machine

/-! ## DECODE and PIPE as functions of their operand (R77, R80) -/

theorem opDecode_of_error {s : List Byte} {e : ErrCode} (h : reading s = .error e) : opDecode s = .err e := by
  rw [opDecode, h]

theorem opDecode_of_reading {s : List Byte} {uv : Nat × Int} (h : reading s = .ok uv) :
    opDecode s = .ok { num := some uv } := by
  rw [opDecode, h]

/-- A worked reading, from the value of its digits and the correction of that value. -/
theorem reading_of_value {s : List Byte} {u : Nat} {v : Int} (hne : s ≠ []) (hhex : ∀ b ∈ s, ishex b = true)
    (hu : hexnat s = u) (hv : tc u = v) : reading s = .ok (u, v) := by
  rw [reading_of_hex hne hhex, hu, hv]

theorem reading_exampleData : reading exampleData = .ok (65526, -10) :=
  reading_of_value (by decide) (by decide) (by decide) (by decide)

theorem opPipe_of_body_error {s : List Byte} {e : ErrCode} (h : frameBody s = .error e) : opPipe s = .err e := by
  rw [opPipe, h]

section
variable {s b d : List Byte}

theorem opPipe_of_data_error {e : ErrCode} (hb : frameBody s = .ok b) (hd : dataSection b = .error e) :
    opPipe s = .err e := by
  simp only [opPipe, hb, hd]

theorem opPipe_of_reading_error {e : ErrCode} (hb : frameBody s = .ok b) (hd : dataSection b = .ok d)
    (hr : reading d = .error e) : opPipe s = .err e := by
  simp only [opPipe, hb, hd, hr]

theorem opPipe_of_reading {uv : Nat × Int} (hb : frameBody s = .ok b) (hd : dataSection b = .ok d)
    (hr : reading d = .ok uv) : opPipe s = .ok { out := some d, num := some uv } := by
  simp only [opPipe, hb, hd, hr]

end

theorem dataSection_of_short {b : List Byte} (h : b.length < 16) : dataSection b = .error .frameTooShort := by
  rw [dataSection_eq, if_pos h]

theorem dataSection_of_long {b : List Byte} (h : 16 ≤ b.length) : dataSection b = .ok (b.drop 13) := by
  rw [dataSection_eq, if_neg (by omega)]

/-! ## Completions -/

/-- DECODE of digits commits their value and its correction, and changes nothing else. -/
theorem exec_decode_of_hex {s : State} (hne : s.operand ≠ []) (hhex : ∀ b ∈ s.operand, ishex b = true) :
    ∃ t, exec .decode s = .next t ∧ t.resU = hexnat s.operand ∧ t.resS = tc (hexnat s.operand) ∧
      t.Completed .ok ∧ KeepsInput s t ∧ KeepsOut s t ∧ KeepsBcc s t := by
  obtain ⟨hresU, hresS⟩ := s.complete_ok_num { num := some (hexnat s.operand, tc (hexnat s.operand)) }
  exact ⟨_, exec_of_ok (opDecode_of_reading (reading_of_hex hne hhex)), hresU, hresS,
    s.complete_ok_completed _, s.complete_keepsInput _, s.complete_ok_keepsOut _ rfl, s.complete_ok_bcc _⟩

/-- PIPE of a frame whose data section is digits commits that section, its value and the correction at once (R80). -/
theorem exec_pipe_of_hex {s : State} {b d : List Byte} (hb : frameBody s.operand = .ok b) (hd : dataSection b = .ok d)
    (hhex : ∀ x ∈ d, ishex x = true) :
    ∃ t, exec .pipe s = .next t ∧ t.OutHolds d ∧ t.outLen.toNat = d.length ∧ t.resU = hexnat d ∧
      t.resS = tc (hexnat d) ∧ t.Completed .ok ∧ KeepsInput s t ∧ KeepsBcc s t := by
  have hframe := frameBody_length hb
  have hbody := dataSection_length hd
  have hne : d ≠ [] := List.ne_nil_of_length_pos (by omega)
  obtain ⟨hresU, hresS⟩ := s.complete_ok_num { out := some d, num := some (hexnat d, tc (hexnat d)) }
  have hout : (s.complete (.ok { out := some d, num := some (hexnat d, tc (hexnat d)) })).OutHolds d :=
    State.complete_ok_outHolds_of_le rfl (by omega)
  exact ⟨_, exec_of_ok (opPipe_of_reading hb hd (reading_of_hex hne hhex)), hout, hout.outLen_eq, hresU, hresS,
    s.complete_ok_completed _, s.complete_keepsInput _, s.complete_ok_bcc _⟩

/-! ## DecodedReading (R82, R83) -/

theorem decodedReading_eq (v : Int) : decodedReading v = (v : ℚ) / 10 := by
  rw [decodedReading, Config.scale, Nat.cast_ofNat]

theorem decodedReading_minusTen : decodedReading (-10) = -1 := by norm_num [decodedReading_eq]

theorem decodedReading_two : decodedReading 2 = 1 / 5 := by norm_num [decodedReading_eq]

/-! ## The decimal digits (R84) -/

theorem decDigit_toNat {d : Nat} (h : d < 10) : (decDigit d).toNat = 0x30 + d := by
  rw [decDigit, BitVec.toNat_ofNat]
  omega

theorem decDigits_of_lt {k : Nat} (h : k < 10) (fuel : Nat) : decDigits fuel k = [decDigit k] := by
  cases fuel with
  | zero => rw [decDigits, Nat.mod_eq_of_lt h]
  | succ fuel => rw [decDigits, if_pos h]

/-- Fuel beyond k changes nothing: each digit taken leaves a smaller number. -/
theorem decDigits_fuel {fuel fuel' k : Nat} (h : k ≤ fuel) (h' : k ≤ fuel') : decDigits fuel k = decDigits fuel' k := by
  induction fuel generalizing fuel' k with
  | zero => rw [decDigits_of_lt (by omega), decDigits_of_lt (by omega)]
  | succ fuel ih =>
    by_cases hk : k < 10
    · rw [decDigits_of_lt hk, decDigits_of_lt hk]
    · obtain ⟨fuel', rfl⟩ := Nat.exists_eq_add_of_le' (show 1 ≤ fuel' by omega)
      rw [decDigits, decDigits, if_neg hk, if_neg hk, ih (fuel' := fuel') (by omega) (by omega)]

theorem dec_of_lt {k : Nat} (h : k < 10) : dec k = [decDigit k] := decDigits_of_lt h k

theorem dec_of_ge {k : Nat} (h : 10 ≤ k) : dec k = dec (k / 10) ++ [decDigit (k % 10)] := by
  obtain ⟨n, rfl⟩ := Nat.exists_eq_add_of_le' (show 1 ≤ k by omega)
  rw [dec, decDigits, if_neg (by omega), decDigits_fuel (by omega) le_rfl, dec]

/-- Induction along the digits of a number: one digit, or one more digit behind those of k / 10. -/
theorem dec_induction {P : Nat → Prop} (digit : ∀ k < 10, P k) (more : ∀ k, 10 ≤ k → P (k / 10) → P k) (k : Nat) :
    P k := by
  induction k using Nat.strong_induction_on with
  | h k ih =>
    rcases Nat.lt_or_ge k 10 with hk | hk
    · exact digit k hk
    · exact more k hk (ih (k / 10) (by omega))

theorem dec_value (k : Nat) : (dec k).foldl (fun a b => 10 * a + (b.toNat - 0x30)) 0 = k := by
  induction k using dec_induction with
  | digit k hk =>
    rw [dec_of_lt hk, List.foldl_cons, List.foldl_nil, decDigit_toNat hk]
    omega
  | more k hk ih =>
    rw [dec_of_ge hk, List.foldl_append, ih, List.foldl_cons, List.foldl_nil, decDigit_toNat (k.mod_lt (by decide))]
    omega

theorem dec_isDigit (k : Nat) : ∀ b ∈ dec k, 0x30 ≤ b.toNat ∧ b.toNat ≤ 0x39 := by
  have hdigit : ∀ d < 10, 0x30 ≤ (decDigit d).toNat ∧ (decDigit d).toNat ≤ 0x39 := by
    intro d hd
    rw [decDigit_toNat hd]
    omega
  induction k using dec_induction with
  | digit k hk => simpa [dec_of_lt hk] using hdigit k hk
  | more k hk ih =>
    intro b hb
    rw [dec_of_ge hk, List.mem_append, List.mem_singleton] at hb
    rcases hb with hb | rfl
    · exact ih b hb
    · exact hdigit _ (k.mod_lt (by decide))

theorem dec_ne_nil (k : Nat) : dec k ≠ [] := by
  rcases Nat.lt_or_ge k 10 with hk | hk
  · simp [dec_of_lt hk]
  · simp [dec_of_ge hk]

/-- No leading zero but in "0": the first digit of k is that of k / 10, as long as that is not 0. -/
theorem dec_head_zero {k : Nat} (h : (dec k).head? = some 0x30#8) : k = 0 := by
  induction k using dec_induction with
  | digit k hk =>
    rw [dec_of_lt hk, List.head?_cons, Option.some.injEq] at h
    have hval : 0x30 + k = 0x30 := (decDigit_toNat hk).symm.trans (congrArg BitVec.toNat h)
    omega
  | more k hk ih =>
    rw [dec_of_ge hk, List.head?_append_of_ne_nil _ (dec_ne_nil _)] at h
    have := ih h
    omega

/-- `render6` writes the remainder as one digit. -/
theorem render6_eq (v : Int) : render6 v = (if v < 0 then [0x2D#8] else []) ++ dec (v.natAbs / 10) ++ [0x2E#8] ++
    [decDigit (v.natAbs % 10)] ++ [0x30#8, 0x30#8, 0x30#8, 0x30#8, 0x30#8] := by
  rw [render6, Config.scale, dec_of_lt (v.natAbs.mod_lt (by decide))]

/-! ## The statements -/

/-- Settles O30: the reading of the operand is NotHex, or the digits' value with `tc` written out. -/
theorem decodeReadsASignedValue : Obligations.DecodeReadsASignedValue := by
  refine ⟨fun s hbad => exec_raises (opDecode_of_error (reading_of_not_hex hbad)), fun s hne hhex => ?digits, rfl,
    opDecode_of_reading ?upperCase, opDecode_of_reading ?lowerCase, opDecode_of_reading ?positive, rfl, rfl, rfl,
    decodedReading_minusTen, decodedReading_two, opDecode_of_reading reading_exampleData⟩
  case digits =>
    obtain ⟨t, ht, hresU, hresS, hkeeps⟩ := exec_decode_of_hex hne hhex
    exact ⟨t, ht, hresU, hresS.trans (tc_eq _), hresU ▸ hexnat_lt _, hkeeps⟩
  case upperCase | lowerCase | positive => exact reading_of_value (by decide) (by decide) (by decide) (by decide)

/-- Settles O31: `tc` subtracts 2^16 once, so a value of at least 2^16 stays at or above 0. -/
theorem wideValuesAreNotReduced : Obligations.WideValuesAreNotReduced := by
  refine ⟨fun s hhex hwide => ?wide, opDecode_of_reading ?least, opDecode_of_reading ?fiveDigits,
    opDecode_of_reading ?eightDigits⟩
  case wide =>
    have hne : s.operand ≠ [] := by
      intro hnil
      simp [hnil, hexnat] at hwide
    obtain ⟨t, ht, hresU, hresS, ⟨herr, -⟩, -⟩ := exec_decode_of_hex hne hhex
    rw [tc_eq, if_pos (by omega)] at hresS
    exact ⟨t, ht, herr, hresU, hresS, by omega⟩
  case least | fiveDigits | eightDigits => exact reading_of_value (by decide) (by decide) (by decide) (by decide)

/-- Settles O32: the stages in order, boundary check, length of the body, reading of its data section. -/
theorem pipeRunsTheWholePipeline : Obligations.PipeRunsTheWholePipeline := by
  refine ⟨fun s hstx => exec_raises (opPipe_of_body_error (frameBody_missingStx hstx)),
    fun s hstx hetx => exec_raises (opPipe_of_body_error (frameBody_missingEtx hstx hetx)),
    fun s e hstx he => ?delimited, rfl, ?exampleFrame, rfl, decodedReading_minusTen⟩
  case delimited =>
    intro body d
    have hbody : frameBody s.operand = .ok body := frameBody_ok hstx he
    refine ⟨fun hshort => exec_raises (opPipe_of_data_error hbody (dataSection_of_short hshort)),
      fun hlen hbad => ?notHex, fun hlen hhex => exec_pipe_of_hex hbody (dataSection_of_long hlen) hhex⟩
    case notHex =>
      exact exec_raises (opPipe_of_reading_error hbody (dataSection_of_long hlen) (reading_of_not_hex (.inr hbad)))
  case exampleFrame =>
    have hbody : frameBody (responseFrame exampleBody) = .ok exampleBody := by
      rw [← (responseFrame exampleBody).append_nil, frameBody_responseFrame (by decide)]
    exact opPipe_of_reading hbody (dataSection_of_long (by decide)) reading_exampleData

/-- Settles O35: `dec` by induction along its digits; the remainder by 10 is one digit. -/
theorem decimalDigitsAreExact : Obligations.DecimalDigitsAreExact :=
  ⟨fun k => ⟨dec_value k, dec_isDigit k, dec_ne_nil k, dec_head_zero⟩, rfl,
    fun v => ⟨decDigit (v.natAbs % 10), decDigit_toNat (v.natAbs.mod_lt (by decide)), render6_eq v⟩,
    by decide, by decide, by decide, by decide⟩

/-- Settles O34: RES_S is `tc` of the digits' value, and DecodedReading divides by 10 in ℚ. -/
theorem readingIsExactTenth : Obligations.ReadingIsExactTenth := by
  refine ⟨fun s hne hhex => ?tenth, (congrArg decodedReading ?minusTen).trans decodedReading_minusTen,
    (congrArg decodedReading ?two).trans decodedReading_two⟩
  case tenth =>
    obtain ⟨t, ht, -, hresS, -⟩ := exec_decode_of_hex hne hhex
    exact ⟨t, ht, by rw [decodedReading_eq, hresS]⟩
  case minusTen | two => decide

end Sys2Proof.Machine
end

section
/-! PROOFS. The error model (60_exceptions.md): the outcome a result leaves in ERR, the outcomes of each operation as a
function of its operand, their priority, and who writes ERR. First what an operation's outcome and a step's ERR are, said
once each; then the statements. -/

namespace Sys2Proof.Machine

/-! ## The outcome of a result -/

/-- The outcome a result leaves in ERR when it completes (R88). -/
def OpResult.outcome : OpResult → ErrCode
  | .ok _ => .ok
  | .err e => e

theorem State.complete_err_eq_outcome (s : State) (r : OpResult) : (s.complete r).err = r.outcome := by
  cases r <;> rfl

theorem exec_outcome (i : Instr) (s : State) : ∃ t, exec i s = .next t ∧ t.err = (opOf i s.operand).outcome :=
  ⟨_, exec_eq_complete i s, s.complete_err_eq_outcome _⟩

/-- A result that passes on a stage's errors is the error OK only if the stage's or what follows it is. -/
theorem ne_err_ok_of_stage {α : Type} {x : Except ErrCode α} {r : OpResult} (hstage : x ≠ .error .ok)
    (herr : ∀ e, x = .error e → r = .err e) (hok : ∀ a, x = .ok a → r ≠ .err .ok) : r ≠ .err .ok := by
  cases hx : x with
  | error e => exact fun h => hstage (OpResult.err.inj ((herr e hx).symm.trans h) ▸ hx)
  | ok a => exact hok a hx

theorem opBccchk_ne_err_ok_of_end {s : List Byte} {e : Nat} (h : frameEnd s = .ok e) : opBccchk s ≠ .err .ok := by
  cases hb : s[e + 1]? with
  | none => exact (opBccchk_absent h hb).trans_ne nofun
  | some b =>
    by_cases hmatch : b = xorfold (slice s 1 (e + 1))
    · exact (opBccchk_match h (hmatch ▸ hb)).trans_ne nofun
    · exact (opBccchk_mismatch h hb hmatch).trans_ne nofun

/-- An operation that raises does not raise OK. -/
theorem opOf_ne_err_ok (i : Instr) (s : List Byte) : opOf i s ≠ .err .ok := by
  cases i with
  | bcc | build => nofun
  | validate =>
    exact ne_err_ok_of_stage (frameBody_ne_error_ok s) (fun _ => opValidate_of_error)
      fun _ hb => (opValidate_of_body hb).trans_ne nofun
  | extract =>
    exact ne_err_ok_of_stage (dataSection_ne_error_ok s) (fun _ => opExtract_of_error)
      fun _ hd => (opExtract_of_data hd).trans_ne nofun
  | decode =>
    exact ne_err_ok_of_stage (reading_ne_error_ok s) (fun _ => opDecode_of_error)
      fun _ hr => (opDecode_of_reading hr).trans_ne nofun
  | pipe => exact opPipe_ne_err_ok s
  | bccchk =>
    exact ne_err_ok_of_stage (frameEnd_ne_error_ok s) (fun _ => opBccchk_of_error) fun _ => opBccchk_ne_err_ok_of_end

/-! ## The outcome of each operation (R89, R90) -/

theorem frameBody_of_frameEnd_error {s : List Byte} {c : ErrCode} (h : frameEnd s = .error c) :
    frameBody s = .error c := by
  rw [frameBody, h]

theorem frameBody_of_frameEnd_ok {s : List Byte} {e : Nat} (h : frameEnd s = .ok e) :
    frameBody s = .ok (slice s 1 e) := by
  rw [frameBody, h]

/-- The priority of the boundary errors (R90), for every operation that raises what the boundary check finds and has the
outcome `k e` on a frame whose first ETX is at e. -/
theorem outcome_behind_frameEnd {s : List Byte} {r : OpResult} {k : Nat → ErrCode}
    (herr : ∀ c, frameEnd s = .error c → r = .err c) (hok : ∀ e, frameEnd s = .ok e → r.outcome = k e) :
    r.outcome = if s.head? ≠ some 0x02#8 then .missingStx
      else match first s 0x03#8 with
        | none => .missingEtx
        | some e => k e := by
  by_cases hstx : s.head? = some 0x02#8
  · rw [if_neg (not_not.2 hstx)]
    cases hetx : first s 0x03#8 with
    | none => exact congrArg OpResult.outcome (herr _ (frameEnd_missingEtx hstx (first_eq_none_iff.1 hetx)))
    | some e => exact hok e (frameEnd_ok hstx hetx)
  · rw [if_pos hstx, herr _ (frameEnd_missingStx hstx)]
    rfl

theorem opValidate_outcome (s : List Byte) :
    (opValidate s).outcome = if s.head? ≠ some 0x02#8 then .missingStx
      else if 0x03#8 ∈ s then .ok else .missingEtx := by
  rw [outcome_behind_frameEnd (k := fun _ => .ok) (fun c h => opValidate_of_error (frameBody_of_frameEnd_error h))
    fun e h => congrArg OpResult.outcome (opValidate_of_body (frameBody_of_frameEnd_ok h))]
  congr 1
  cases hetx : first s 0x03#8 with
  | none => rw [if_neg (first_eq_none_iff.1 hetx)]
  | some e => rw [if_pos (List.mem_of_getElem? (first_eq_some_iff.1 hetx).1)]

theorem opExtract_outcome (s : List Byte) :
    (opExtract s).outcome = if s.length < 16 then .frameTooShort else .ok := by
  split
  next hshort => rw [opExtract_of_error (dataSection_of_short hshort), OpResult.outcome]
  next hlong => rw [opExtract_of_data (dataSection_of_long (not_lt.1 hlong)), OpResult.outcome]

theorem reading_of_not_all_hex {s : List Byte} (h : ¬ s.all ishex = true) : reading s = .error .notHex :=
  reading_of_not_hex (.inr (by simpa using h))

theorem opDecode_outcome (s : List Byte) :
    (opDecode s).outcome = if s = [] then .notHex else if s.all ishex then .ok else .notHex := by
  split
  next hnil => rw [opDecode_of_error (reading_of_not_hex (.inl hnil)), OpResult.outcome]
  next hne =>
    split
    next hhex => rw [opDecode_of_reading (reading_of_hex hne (List.all_eq_true.1 hhex)), OpResult.outcome]
    next hbad => rw [opDecode_of_error (reading_of_not_all_hex hbad), OpResult.outcome]

/-- PIPE's outcome behind the boundary check: the body's length before the digits of its data section. -/
theorem opPipe_outcome_of_body {s b : List Byte} (h : frameBody s = .ok b) :
    (opPipe s).outcome = if b.length < 16 then .frameTooShort
      else if (b.drop 13).all ishex then .ok else .notHex := by
  split
  next hshort => rw [opPipe_of_data_error h (dataSection_of_short hshort), OpResult.outcome]
  next hlong =>
    have hdata := dataSection_of_long (not_lt.1 hlong)
    have hne : b.drop 13 ≠ [] := List.ne_nil_of_length_pos (by rw [List.length_drop]; omega)
    split
    next hhex => rw [opPipe_of_reading h hdata (reading_of_hex hne (List.all_eq_true.1 hhex)), OpResult.outcome]
    next hbad => rw [opPipe_of_reading_error h hdata (reading_of_not_all_hex hbad), OpResult.outcome]

theorem opPipe_outcome (s : List Byte) :
    (opPipe s).outcome = if s.head? ≠ some 0x02#8 then .missingStx
      else match first s 0x03#8 with
        | none => .missingEtx
        | some e =>
          if (slice s 1 e).length < 16 then .frameTooShort
          else if ((slice s 1 e).drop 13).all ishex then .ok else .notHex :=
  outcome_behind_frameEnd (fun _ h => opPipe_of_body_error (frameBody_of_frameEnd_error h))
    fun _ h => opPipe_outcome_of_body (frameBody_of_frameEnd_ok h)

/-- BCCCHK's outcome behind the boundary check: whether there is a byte after the ETX before what it is. -/
theorem opBccchk_outcome_of_end {s : List Byte} {e : Nat} (h : frameEnd s = .ok e) :
    (opBccchk s).outcome = if s.length ≤ e + 1 then .bccAbsent
      else if s[e + 1]? = some (xorfold (slice s 1 (e + 1))) then .ok else .bccMismatch := by
  split
  next hlen => rw [opBccchk_absent h (List.getElem?_eq_none hlen), OpResult.outcome]
  next hlen =>
    split
    next hmatch => rw [opBccchk_match h hmatch, OpResult.outcome]
    next hne =>
      have hbyte : s[e + 1]? = some s[e + 1] := List.getElem?_eq_getElem (not_le.1 hlen)
      rw [opBccchk_mismatch h hbyte fun hmatch => hne (hmatch ▸ hbyte), OpResult.outcome]

theorem opBccchk_outcome (s : List Byte) :
    (opBccchk s).outcome = if s.head? ≠ some 0x02#8 then .missingStx
      else match first s 0x03#8 with
        | none => .missingEtx
        | some e =>
          if s.length ≤ e + 1 then .bccAbsent
          else if s[e + 1]? = some (xorfold (slice s 1 (e + 1))) then .ok else .bccMismatch :=
  outcome_behind_frameEnd (fun _ => opBccchk_of_error) fun _ => opBccchk_outcome_of_end

/-! ## The outcomes that occur -/

/-- From reset, the state in which IN holds a byte sequence and IN_LEN its length. -/
def State.holding (bs : List Byte) : State :=
  { State.reset with inBuf := Memory.ofBytes 0 bs, inLen := BitVec.ofNat 32 bs.length }

/-- 21 bytes fit IN whatever N_IN is (R7). -/
theorem State.holding_operand {bs : List Byte} (h : bs.length ≤ 21) : (State.holding bs).operand = bs := by
  have hlen : (State.holding bs).inLen.toNat = bs.length := Nat.mod_eq_of_lt (by omega)
  refine List.ext_getElem? fun k => ?_
  rw [State.operand_getElem?, hlen]
  by_cases hk : k < bs.length <;> simp [hk, State.inByte, State.holding]

/-- The outcomes of an operation are exactly the listed ones when it has no other and each has a sample operand, in
the list's order, that fits IN. -/
theorem exec_err_iff_mem {i : Instr} {es : List ErrCode} (samples : List (List Byte))
    (honly : ∀ bs, (opOf i bs).outcome ∈ es) (hfit : ∀ bs ∈ samples, bs.length ≤ 21)
    (hreach : samples.map (fun bs => (opOf i bs).outcome) = es) (e : ErrCode) :
    (∃ s t, exec i s = .next t ∧ t.err = e) ↔ e ∈ es := by
  constructor
  · rintro ⟨s, t, ht, rfl⟩
    rw [exec_inv ht, State.complete_err_eq_outcome]
    exact honly s.operand
  · intro he
    rw [← hreach] at he
    obtain ⟨bs, hbs, rfl⟩ := List.mem_map.1 he
    obtain ⟨t, ht, herr⟩ := exec_outcome i (State.holding bs)
    exact ⟨_, t, ht, by rw [herr, State.holding_operand (hfit bs hbs)]⟩

/-! ## What the host, the CODEC and RST do to ERR (R91) -/

theorem hostTurn_err {s t : State} (h : hostTurn s = .next t) : t.err = s.err := by
  rcases hostTurn_cases h with ⟨g, rfl⟩ | ⟨v, g, -, -, rfl⟩ | ⟨v, g, -, -, rfl⟩ | ⟨k, b, g, -, -, rfl⟩ <;> rfl

theorem step_codec_illegal_err {s : State} {op : BitVec 4} (hn : s.nextTurn = .codec) (hb : s.busy = true)
    (hp : s.pendOp = some op) (hop : op = 0#4 ∨ 8 ≤ op.toNat) : ∃ t, step s = .next t ∧ t.err = .illegalOp :=
  ⟨_, step_codec_illegal hn hb hp hop, rfl⟩

theorem ErrCode.code_le (e : ErrCode) : e.code.toNat ≤ 7 := by cases e <;> decide

theorem State.statusRead_idle {s : State} (hb : s.busy = false) : s.statusRead.toNat = s.err.code.toNat := by
  rw [State.statusRead, statusWord_toNat]
  simp [hb]

/-! ## The statements -/

/-- Settles O37: an illegal OP completes before the operand is looked at; each chain is its operation's outcome. -/
theorem errorPriority : Obligations.ErrorPriority := by
  refine ⟨fun s op => step_codec_illegal_err, fun s => ?validate, fun s => ?pipe, fun s => ?bccchk, rfl, rfl⟩
  case validate => exact opValidate_outcome s.operand ▸ exec_outcome .validate s
  case pipe => exact opPipe_outcome s.operand ▸ exec_outcome .pipe s
  case bccchk => exact opBccchk_outcome s.operand ▸ exec_outcome .bccchk s

/-- Settles O36: the chains of outcomes name no other error, and a sample operand raises each. -/
theorem errorCodesOfEachOperation : Obligations.ErrorCodesOfEachOperation := by
  refine ⟨exec_err_iff_mem [[]] (fun bs => ?bcc) (by decide) rfl,
    exec_err_iff_mem [[]] (fun bs => ?build) (by decide) rfl,
    exec_err_iff_mem [[0x02, 0x03], [], [0x02]] (fun bs => ?validate) (by decide) rfl,
    exec_err_iff_mem [List.replicate 16 0x30, []] (fun bs => ?extract) (by decide) rfl,
    exec_err_iff_mem [[0x30], []] (fun bs => ?decode) (by decide) rfl,
    exec_err_iff_mem [[0x02] ++ List.replicate 16 0x30 ++ [0x03], [], [0x02], [0x02, 0x03],
      [0x02] ++ List.replicate 16 0x5A ++ [0x03]] (fun bs => ?pipe) (by decide) rfl,
    exec_err_iff_mem [[0x02, 0x03, 0x03], [], [0x02], [0x02, 0x03], [0x02, 0x03, 0x00]] (fun bs => ?bccchk)
      (by decide) rfl,
    fun s => rfl, rfl⟩
  case bcc | build => exact List.mem_singleton_self _
  case validate =>
    rw [opOf, opValidate_outcome]
    split_ifs <;> decide
  case extract =>
    rw [opOf, opExtract_outcome]
    split <;> decide
  case decode =>
    rw [opOf, opDecode_outcome]
    split_ifs <;> decide
  case pipe =>
    rw [opOf, opPipe_outcome]
    split
    next => decide
    next =>
      split
      next => decide
      next => split_ifs <;> decide
  case bccchk =>
    rw [opOf, opBccchk_outcome]
    split
    next => decide
    next =>
      split
      next => decide
      next => split_ifs <;> decide

/-- Settles O39: a host turn and an idle CODEC turn keep ERR, and every completion leaves its result's outcome there. -/
theorem errLifecycle : Obligations.ErrLifecycle := by
  refine ⟨rfl, ErrCode.code_le, fun s t h hn => ?host, fun s t h hn hb => ?idle, fun s t h hn => ?rst,
    fun i s => ?operandAlone, fun i s => ?completion, fun i s hn hb hp => step_codec_run hn hb hp (decodeOp_op i),
    fun s op => step_codec_illegal_err, rfl, fun s v => hostWriteReg_ignored (by decide) (by decide) v s,
    fun s => State.statusRead_idle⟩
  case host => exact (hostTurn_err ((step_host hn).symm.trans h)).trans s.spendTurn_err
  case idle =>
    obtain rfl := Host.Outcome.next.inj ((step_codec_idle hn hb).symm.trans h)
    rfl
  case rst =>
    obtain rfl := Host.Outcome.next.inj ((step_rst hn).symm.trans h)
    rfl
  case operandAlone => exact ⟨(opOf i s.operand).outcome, fun s' hs => hs ▸ exec_outcome i s'⟩
  case completion =>
    refine ⟨opOf i s.operand, by cases i <;> rfl, exec_eq_complete i s, fun w hw => ?_, fun e he => ⟨?_, ?_⟩⟩
    · rw [hw, State.complete_ok_err]
    · rintro rfl
      exact opOf_ne_err_ok i s.operand he
    · rw [he, State.complete_err_eq_outcome, OpResult.outcome]

end Sys2Proof.Machine
end

section
/-! PROOFS. Reset and the hazards the host must respect (70_reset_and_hazards.md): what reset leaves, what a step that
faults was, what a read gives while BUSY = 1 and what an operation leaves of IN and of OUT. First the facts about an access,
a step and a run, said once each; then the statements. -/

namespace Sys2Proof.Machine

/-! ## Reads right after reset (R102) -/

theorem hostReadReg_reset (r : Nat) : hostReadReg r State.reset = 0 := by
  rcases Nat.lt_or_ge r 7 with hmapped | hunmapped
  · interval_cases r <;> rfl
  · exact hostReadReg_unmapped hunmapped _

/-! ## Faults (R105) -/

/-- A host turn faults exactly when the instruction it fetched writes CTRL, IN_LEN or IN while BUSY = 1. -/
theorem hostTurn_fault_iff {s : State} {f : Fault} :
    hostTurn s = .fault f ↔ ∃ j g, s.host.fetch = some (j, g) ∧ f = .hostWriteWhileBusy ∧ s.busy = true ∧
      ((∃ r v, j = .wreg r v ∧ (r = regCtrl ∨ r = regInLen)) ∨ (∃ k b, j = .win k b) ∨ ∃ k, j = .winAcc k) := by
  unfold hostTurn
  cases s.host.fetch with
  | none => simp
  | some p =>
    obtain ⟨j, g⟩ := p
    simp [hostExec_fault_iff]

/-- Only a host turn faults. -/
theorem step_fault_iff {s : State} {f : Fault} :
    step s = .fault f ↔ s.nextTurn = .host ∧ hostTurn s.spendTurn = .fault f := by
  cases hn : s.nextTurn with
  | host => simp [step_host hn]
  | codec =>
    cases hb : s.busy with
    | false => simp [step_codec_idle hn hb]
    | true =>
      obtain ⟨r, hr, -⟩ := step_codec_busy hn hb
      simp [hr]
  | rst => simp [step_rst hn]
  | secondHost => simp [step_secondHost hn]

/-- A run that faulted stays faulted, however many more steps it is given. -/
theorem run_fault_add {M : Host.Core} {k : Nat} {s : M.State} {f : M.Fault} (h : M.run k s = .fault f) (m : Nat) :
    M.run (k + m) s = .fault f := by
  induction k generalizing s with
  | zero => cases h
  | succ k ih =>
    rw [Nat.add_right_comm, Host.Core.run]
    rw [Host.Core.run] at h
    cases hs : M.step s with
    | next t =>
      rw [hs] at h
      exact ih h
    | fault e =>
      rw [hs] at h
      exact h
    | refused e =>
      rw [hs] at h
      cases h

/-! ## STATUS while BUSY = 1 (R106) -/

/-- STATUS bits 3:0 are the four bits of ERR it was made of (R19). -/
theorem statusWord_errBits (b : Bool) (e : BitVec 4) : (statusWord b e).setWidth 4 = e := by
  cases b <;> revert e <;> decide

theorem State.statusRead_busy {s : State} (hb : s.busy = true) :
    s.statusRead = statusWord true (Config.freeErr s.draws) := by
  rw [State.statusRead, hb, if_pos rfl]

/-! ## OUT from OUT_LEN on (R109) -/

/-- Every operation keeps the invariant. -/
theorem State.Inv.exec {i : Instr} {s t : State} (hs : s.Inv) (h : exec i s = .next t) : t.Inv := by
  rw [exec_inv h]
  exact hs.complete (opOf_fits i hs.inLen_le)

/-- Under the invariant OUT holds nothing at or beyond OUT_LEN. -/
theorem State.Inv.outBuf_beyond {s : State} (hs : s.Inv) {a : Nat} (ha : s.outLen.toNat ≤ a) :
    s.outBuf.read a = none := by
  rw [← Option.not_isSome_iff_eq_none, hs.out_listed, decide_eq_true_eq]
  exact Nat.not_lt_of_le ha

/-! ## The statements -/

/-- Settles O38: a completion whose outcome is an error discards every staged write. -/
theorem resultsAreStaleAfterAnError : Obligations.ResultsAreStaleAfterAnError := by
  intro i s t h herr
  obtain rfl := exec_inv h
  exact State.complete_raises herr

/-- Settles O41: a completion keeps IN and IN_LEN, and an operation's ERR depends on its operand alone. -/
theorem operandsAreNotForwarded : Obligations.OperandsAreNotForwarded := by
  intro i s t h
  obtain rfl := exec_inv h
  obtain ⟨hlen, hoperand, hread, -⟩ := s.complete_keepsInput (opOf i s.operand)
  exact ⟨hoperand, hlen, hread, fun j => exec_err_congr (congrArg (opOf j) hoperand)⟩

/-- Settles O52: only a host turn faults, by the instruction it fetched, and a run stops at its first fault. -/
theorem writeWhileBusyFaults : Obligations.WriteWhileBusyFaults := by
  refine ⟨fun s f => ?fault, fun s k m f h => run_fault_add h m⟩
  case fault =>
    rw [step_fault_iff, hostTurn_fault_iff, State.spendTurn_host, State.spendTurn_busy]
    constructor
    · rintro ⟨hn, j, g, hf, he, hb, ⟨r, v, rfl, hr⟩ | ⟨k, b, rfl⟩ | ⟨k, rfl⟩⟩
      · exact ⟨he, hn, hb, .inl ⟨r, v, g, hf, hr⟩⟩
      · exact ⟨he, hn, hb, .inr (.inl ⟨k, b, g, hf⟩)⟩
      · exact ⟨he, hn, hb, .inr (.inr ⟨k, g, hf⟩)⟩
    · rintro ⟨he, hn, hb, ⟨r, v, g, hf, hr⟩ | ⟨k, b, g, hf⟩ | ⟨k, g, hf⟩⟩
      · exact ⟨hn, _, g, hf, he, hb, .inl ⟨r, v, rfl, hr⟩⟩
      · exact ⟨hn, _, g, hf, he, hb, .inr (.inl ⟨k, b, rfl⟩)⟩
      · exact ⟨hn, _, g, hf, he, hb, .inr (.inr ⟨k, rfl⟩)⟩

/-- Settles O54: an idle read there is a free value, and the invariant, which every operation keeps, bounds what OUT
lists by OUT_LEN. -/
theorem outBeyondItsLengthIsUnspecified : Obligations.OutBeyondItsLengthIsUnspecified := by
  refine ⟨fun s i hb hl hi => ?idleRead, fun j s t hs h a => (hs.exec h).outBuf_beyond⟩
  case idleRead => rw [hostReadOut_idle hi hb, State.outByte_beyond hl]

/-- Settles O8: the registers read 0, and the buffers list nothing, so that a read of them is a free value. -/
theorem resetLeavesSpecValues : Obligations.ResetLeavesSpecValues := by
  refine ⟨rfl, rfl, rfl, rfl, rfl, rfl, rfl, rfl, hostReadReg_reset, fun i hi => ⟨rfl, ?inByte⟩,
    fun i hi => ⟨rfl, ?outByte⟩⟩
  case inByte => exact hostReadIn_inRange hi State.reset
  case outByte => rw [hostReadOut_idle hi rfl, State.outByte_beyond (Nat.zero_le i)]

/-- Settles O9: an RST turn is `State.assertRst` whatever BUSY is, and IN_LEN = 0 makes the operand empty. -/
theorem assertingRstResetsTheBlock : Obligations.AssertingRstResetsTheBlock := by
  refine fun s hn => ⟨_, step_rst hn, rfl, rfl, rfl, rfl, rfl, rfl, rfl, rfl, ?operand, fun _ => rfl, fun _ => rfl⟩
  case operand => exact List.length_eq_zero_iff.1 (State.operand_length _)

/-- Settles O53: the STATUS word carries BUSY beside a free ERR, IN_LEN and IN do not look at BUSY, and every other
read is a free value. -/
theorem readsWhileBusy : Obligations.ReadsWhileBusy := by
  intro s hb
  obtain ⟨hlen, hbcc, hu, hv⟩ := hostReadReg_results_busy hb
  refine ⟨?busy, ?err, hostReadReg_inLen s, fun i hi => hostReadIn_inRange hi s, hlen, ⟨_, hbcc, rfl⟩, hu, hv,
    fun i hi => hostReadOut_busy hi hb⟩
  case busy => rw [State.statusRead_busy hb, statusWord_busyBit]
  case err => rw [State.statusRead_busy hb, statusWord_errBits]

end Sys2Proof.Machine
end

section
/-! PROOFS. The round trip of decoder and encoder, the block's invariant through every step, the helper functions, and the
pipeline against its stages. First the facts about each, said once; then the statements. -/

namespace Sys2Proof.Machine

/-! ## Command words (R49, R62) -/

theorem encoding_statement (i : Instr) : Laws.Encoding.Statement i :=
  match i with
  | .bcc => Laws.Encoding.bcc
  | .build => Laws.Encoding.build
  | .validate => Laws.Encoding.validate
  | .extract => Laws.Encoding.extract
  | .decode => Laws.Encoding.decode
  | .pipe => Laws.Encoding.pipe
  | .bccchk => Laws.Encoding.bccchk

theorem decodeTableWord_eq_some_iff {nbits w : Nat} {i : Instr} :
    decodeTableWord nbits w = some i ↔ decode (BitVec.ofNat 32 (w % 2 ^ nbits)) = .ok i := by
  rw [decodeTableWord]
  cases decode (BitVec.ofNat 32 (w % 2 ^ nbits)) <;> simp

/-- All 32 bits of a word are the word. -/
theorem ofNat_toNat_mod (w : Word) : BitVec.ofNat 32 (w.toNat % 2 ^ 32) = w := by
  rw [Nat.mod_eq_of_lt w.isLt, BitVec.ofNat_toNat, BitVec.setWidth_eq]

/-! ## The invariant, for every step -/

theorem State.reset_inv : State.reset.Inv where
  busy_iff := rfl
  inLen_le := Nat.zero_le _
  outLen_le := Nat.zero_le _
  in_wf := State.reset_wf.1
  in_below := nofun
  out_wf := State.reset_wf.2
  out_listed _ := rfl
  resU_lt := Nat.two_pow_pos _
  resS_eq := rfl

theorem State.Inv.spendTurn {s : State} (hs : s.Inv) : s.spendTurn.Inv := { hs with }

/-- RST leaves the block as `State.reset` has it. -/
theorem State.assertRst_inv (s : State) : s.assertRst.Inv := { State.reset_inv with }

theorem State.Inv.hostTurn {s t : State} (hs : s.Inv) (h : hostTurn s = .next t) : t.Inv := by
  rcases hostTurn_cases h with ⟨g, rfl⟩ | ⟨v, g, -, -, rfl⟩ | ⟨v, g, -, hv, rfl⟩ | ⟨k, b, g, -, hk, rfl⟩
  · exact { hs with }
  · exact { hs with busy_iff := rfl }
  · exact { hs with inLen_le := hv }
  · exact { hs with in_wf := Memory.wf_write k b hs.in_wf, in_below := Memory.below_write k b hk hs.in_below }

theorem State.Inv.step {s t : State} (hs : s.Inv) (h : step s = .next t) : t.Inv := by
  rcases step_cases h with ⟨-, hturn⟩ | ⟨-, -, rfl⟩ | ⟨-, -, r, rfl, hr⟩ | ⟨-, rfl⟩
  · exact hs.spendTurn.hostTurn hturn
  · exact hs.spendTurn
  · refine hs.spendTurn.complete ?_
    rcases hr with rfl | ⟨i, -, rfl⟩
    · exact OpResult.fits_err _
    · exact opOf_fits i hs.inLen_le
  · exact State.assertRst_inv _

/-! ## The ranges of RES_U and RES_S (R24, R25) -/

theorem sixteen_le_wU : 16 ≤ Config.wU := by
  have := Config.nIn_ge
  rw [Config.wU_eq]
  omega

theorem two_pow_wU : 2 ^ Config.wU = 16 ^ Config.nIn := by
  rw [Config.wU_eq, pow_mul]
  norm_num

/-- R25's range: the least correction is that of 32768, the greatest that of 32767 or of the greatest value. -/
theorem tc_range {u n : Nat} (hu : u < n) : -32768 ≤ tc u ∧ tc u ≤ max 32767 ((n : Int) - 1 - 65536) := by
  rw [tc_eq]
  split <;> omega

/-! ## The helper functions (R12, R13) -/

theorem tc_eq_toInt {u : Nat} (hu : u < 65536) : tc u = (BitVec.ofNat 16 u).toInt := by
  rw [tc_eq, BitVec.toInt_eq_toNat_cond, BitVec.toNat_ofNat, Nat.mod_eq_of_lt hu]
  split_ifs <;> omega

theorem tc_of_wide {u : Nat} (hu : 65536 ≤ u) : tc u = (u : Int) - 65536 ∧ 0 ≤ tc u := by
  rw [tc_eq, if_pos (by omega)]
  omega

/-- Horner's rule: a digit appended on the right moves the others one place up. -/
theorem hexnat_append_singleton (s : List Byte) (b : Byte) : hexnat (s ++ [b]) = 16 * hexnat s + hexval b := by
  induction s with
  | nil => simp [hexnat]
  | cons c s ih =>
    rw [List.cons_append, hexnat, hexnat, ih, List.length_append, List.length_singleton]
    ring

theorem hexnat_leading_zeros (k : Nat) (s : List Byte) : hexnat (List.replicate k 0x30#8 ++ s) = hexnat s := by
  have hzero : hexval 0x30#8 = 0 := rfl
  induction k with
  | zero => rfl
  | succ k ih => rw [List.replicate_succ, List.cons_append, hexnat, hzero, Nat.zero_mul, Nat.zero_add, ih]

/-- The three ranges of hexadecimal digits (R12). -/
theorem ishex_iff {b : Byte} : ishex b = true ↔ (0x30 ≤ b.toNat ∧ b.toNat ≤ 0x39) ∨
    (0x41 ≤ b.toNat ∧ b.toNat ≤ 0x46) ∨ (0x61 ≤ b.toNat ∧ b.toNat ≤ 0x66) := by
  simp [ishex, or_assoc]

/-! ## PIPE and its stages (R80) -/

theorem exec_err_eq {i : Instr} {s t : State} (h : exec i s = .next t) : t.err = (opOf i s.operand).outcome := by
  rw [exec_inv h, State.complete_err_eq_outcome]

section
variable {s p : State}

theorem pipe_err_of_validate {v : State} (hp : exec .pipe s = .next p) (hv : exec .validate s = .next v)
    (hne : v.err ≠ .ok) : p.err = v.err := by
  rw [exec_err_eq hv] at hne ⊢
  rw [exec_err_eq hp]
  cases hb : frameBody s.operand with
  | error e => simp only [opOf, opPipe_of_body_error hb, opValidate_of_error hb]
  | ok b => exact absurd (by rw [opOf, opValidate_of_body hb, OpResult.outcome]) hne

theorem pipe_err_of_extract {s1 x : State} (hp : exec .pipe s = .next p) (hb : frameBody s.operand = .ok s1.operand)
    (hx : exec .extract s1 = .next x) (hne : x.err ≠ .ok) : p.err = x.err := by
  rw [exec_err_eq hx] at hne ⊢
  rw [exec_err_eq hp]
  cases hd : dataSection s1.operand with
  | error e => simp only [opOf, opPipe_of_data_error hb hd, opExtract_of_error hd]
  | ok d => exact absurd (by rw [opOf, opExtract_of_data hd, OpResult.outcome]) hne

theorem pipe_err_of_decode {b : List Byte} {s2 d : State} (hp : exec .pipe s = .next p)
    (hb : frameBody s.operand = .ok b) (hd : dataSection b = .ok s2.operand) (h : exec .decode s2 = .next d) :
    p.err = d.err := by
  rw [exec_err_eq hp, exec_err_eq h]
  cases hr : reading s2.operand with
  | error e => simp only [opOf, opPipe_of_reading_error hb hd hr, opDecode_of_error hr]
  | ok uv => simp only [opOf, opPipe_of_reading hb hd hr, opDecode_of_reading hr, OpResult.outcome]

end

theorem exec_decode_ok_inv {s d : State} (h : exec .decode s = .next d) (hok : d.err = .ok) :
    reading s.operand = .ok (d.resU, d.resS) := by
  cases hr : reading s.operand with
  | error e =>
    rw [exec_err_eq h, opOf, opDecode_of_error hr] at hok
    obtain rfl : e = .ok := hok
    exact absurd hr (reading_ne_error_ok _)
  | ok uv =>
    obtain rfl := exec_inv h
    rw [opOf, opDecode_of_reading hr]
    rfl

/-! ## The statements -/

/-- Settles O2: `decodeOp` is the inverse of `Instr.op`, and both a word's OP and the table's mask are its bits 3:0. -/
theorem decodeEncodeAgree : Obligations.DecodeEncodeAgree := by
  refine ⟨fun i _ => ?roundTrip, fun w i => ?bits, fun w i => ?table⟩
  case roundTrip =>
    obtain ⟨-, -, -, hop, hcanonical⟩ := encoding_statement i
    exact ⟨decode_eq_ok_iff.2 hop, hcanonical⟩
  case bits => rw [decode_eq_ok_iff, and_opMask_eq_encode_iff]
  case table => rw [decodeTableWord_eq_some_iff, ofNat_toNat_mod]

/-- Settles O3: by evaluating the decoder on each word. -/
theorem specWordsDecode : Obligations.SpecWordsDecode :=
  ⟨rfl, rfl, rfl, rfl, rfl, rfl, rfl, rfl, rfl, rfl, rfl⟩

/-- Settles O10: every register and both buffers at their reset values. -/
theorem resetMeetsTheInvariant : Obligations.ResetMeetsTheInvariant := State.reset_inv

/-- Settles O11: a host turn changes one part of the invariant at a time, a completion writes a result that fits, and RST
gives the reset values. -/
theorem stepKeepsTheInvariant : Obligations.StepKeepsTheInvariant := fun _ _ => State.Inv.step

/-- Settles O13: RES_U is below 2^W_U = 16^N_IN by the invariant, and RES_S is its correction. -/
theorem resultRegistersFitTheirWidths : Obligations.ResultRegistersFitTheirWidths := by
  intro s hs
  have hu : s.resU < 16 ^ Config.nIn := two_pow_wU ▸ hs.resU_lt
  obtain ⟨hlow, hhigh⟩ := tc_bounds sixteen_le_wU hs.resU_lt
  obtain ⟨hmin, hmax⟩ := tc_range hu
  rw [Nat.cast_pow, Nat.cast_ofNat] at hmax
  rw [hs.resS_eq, Config.wS_eq, Nat.add_sub_cancel]
  exact ⟨hs.resU_lt, hlow, hhigh, hmin, hmax⟩

/-- Settles O14: both sides of 2^16, and 2^17, where the low 16 bits are zero and `tc` is not. -/
theorem tcAgainstSignExtension : Obligations.TcAgainstSignExtension :=
  ⟨fun _ hu => tc_eq_toInt hu, fun _ hu => tc_of_wide hu, 131072, by decide⟩

/-- Settles O15: Horner's rule and leading zeros by induction on the digits, R12's ranges by their definition. -/
theorem hexnatIsPositional : Obligations.HexnatIsPositional := by
  refine ⟨hexnat_append_singleton, fun s k => hexnat_leading_zeros k s, fun s _ => hexnat_lt s, fun b h h' => ?decimal,
    fun b h h' => ?upper, fun b h h' => ?lower, fun b hb => ?other⟩
  case decimal => exact ⟨ishex_iff.2 (.inl ⟨h, h'⟩), if_pos ⟨h, h'⟩⟩
  case upper =>
    refine ⟨ishex_iff.2 (.inr (.inl ⟨h, h'⟩)), ?_⟩
    rw [hexval, if_neg (by omega), if_pos ⟨h, h'⟩]
  case lower =>
    refine ⟨ishex_iff.2 (.inr (.inr ⟨h, h'⟩)), ?_⟩
    rw [hexval, if_neg (by omega), if_neg (by omega), if_pos ⟨h, h'⟩]
  case other =>
    rw [← Bool.not_eq_true, ishex_iff]
    omega

/-- Settles O29: VALIDATE and PIPE see nothing of a frame but its body. -/
theorem trailingBytesAreIgnored : Obligations.TrailingBytesAreIgnored := by
  rintro i b tail tail' s s' (rfl | rfl) hb hs hs'
  · obtain ⟨t, ht, herr, hout⟩ := exec_validate_frame hb hs
    obtain ⟨t', ht', herr', hout'⟩ := exec_validate_frame hb hs'
    exact ⟨t, t', ht, ht', herr.trans herr'.symm, fun _ => hout.trans hout'.symm, nofun⟩
  · have hbody := (congrArg frameBody hs).trans (frameBody_responseFrame hb tail)
    have hbody' := (congrArg frameBody hs').trans (frameBody_responseFrame hb tail')
    obtain ⟨t, t', ht, ht', herr, hres⟩ := exec_pipe_congr hbody hbody' rfl
    exact ⟨t, t', ht, ht', herr, fun hok => (hres hok).1, fun hok _ => (hres hok).2⟩

/-- Settles O33: stage by stage, PIPE fails where the stage does, and after three successes it has EXTRACT's result and
DECODE's number. -/
theorem pipeEqualsItsStages : Obligations.PipeEqualsItsStages := by
  intro s p v hp hv
  refine ⟨pipe_err_of_validate hp hv, fun hvok s1 x hs1 hx => ?_⟩
  obtain ⟨b, hb, hvbytes, -⟩ := exec_validate_ok_inv hv hvok
  rw [← hvbytes, ← hs1] at hb
  refine ⟨pipe_err_of_extract hp hb hx, fun hxok s2 d hs2 hd => ?_⟩
  obtain ⟨y, hdata, hxbytes, hxlen, -⟩ := exec_extract_ok_inv hx hxok
  have hdata' : dataSection s1.operand = .ok s2.operand := by rw [hdata, hs2, hxbytes]
  have herr : p.err = d.err := pipe_err_of_decode hp hb hdata' hd
  refine ⟨herr, fun hok => ?_⟩
  obtain ⟨b', y', hb', hy', hnum, hpbytes, hplen, -⟩ := exec_pipe_ok_inv hp (herr.trans hok)
  obtain rfl := Except.ok.inj (hb.symm.trans hb')
  obtain rfl := Except.ok.inj (hdata.symm.trans hy')
  rw [← hxbytes, ← hs2, exec_decode_ok_inv hd hok] at hnum
  obtain ⟨hu, hv⟩ := Prod.mk.inj (Except.ok.inj hnum)
  exact ⟨hu.symm, hv.symm, hpbytes.trans hxbytes.symm, BitVec.eq_of_toNat_eq (hplen.trans hxlen.symm)⟩

end Sys2Proof.Machine
end

section
/-! PROOFS. Who moves next, what runs come to, the side effects of host accesses, and the host's control flow
(20_memory.md, 30_encoding.md section 5, 60_exceptions.md section 5, 70_reset_and_hazards.md section 3). First what an
access, a turn, a step and a run do, said once each; then the statements. -/

namespace Sys2Proof.Machine

/-! ## Host accesses (R44) -/

theorem Memory.write_write_same (m : Memory) (a : Nat) (b : Byte) :
    Memory.write (Memory.write m a b) a b = Memory.write m a b := by
  induction m with
  | nil => simp [Memory.write]
  | cons c m ih =>
    obtain ⟨k, v⟩ := c
    rcases Nat.lt_trichotomy a k with hlt | rfl | hgt
    · simp [Memory.write, hlt]
    · simp [Memory.write]
    · simp [Memory.write, hgt.not_gt, hgt.ne', ih]

/-- No read looks at the host or the schedule. -/
theorem hostReads_ignore_host_turns (s : State) (g : HostAgent) (ts : List Turn) (k : Nat) :
    hostReadReg k { s with host := g, turns := ts } = hostReadReg k s ∧
      hostReadIn k { s with host := g, turns := ts } = hostReadIn k s ∧
      hostReadOut k { s with host := g, turns := ts } = hostReadOut k s :=
  ⟨rfl, rfl, rfl⟩

/-- After one accepted CTRL write the next one faults. -/
theorem hostWriteReg_ctrl_twice {s t : State} {v : Word} (h : hostWriteReg regCtrl v s = .next t) (w : Word) :
    hostWriteReg regCtrl w t = .fault .hostWriteWhileBusy := by
  cases hb : s.busy with
  | true =>
    rw [hostWriteReg_ctrl_busy v hb] at h
    cases h
  | false =>
    obtain rfl := Host.Outcome.next.inj ((hostWriteReg_ctrl_idle v hb).symm.trans h)
    exact hostWriteReg_ctrl_busy w (s.start_busy v)

/-- Writing an IN byte twice is writing it once, but for the draw of the free values. -/
theorem hostWriteIn_twice {s t u : State} {i : Nat} {b : Byte} (h : hostWriteIn i b s = .next t)
    (h' : hostWriteIn i b t = .next u) : { u with draws := t.draws } = t := by
  rcases hostWriteIn_cases h with ⟨-, -, rfl⟩ | rfl
  · rcases hostWriteIn_cases h' with ⟨-, -, rfl⟩ | rfl
    · simp only [Memory.write_write_same]
    · rfl
  · obtain rfl := Host.Outcome.next.inj (h'.symm.trans h)
    rfl

/-! ## Who moves next (R33, R110) -/

section
variable {s : State}

theorem State.nextTurn_cons {a : Turn} {ts : List Turn} (h : s.turns = a :: ts) : s.nextTurn = a := by
  rw [State.nextTurn, h]

theorem State.nextTurn_nil (h : s.turns = []) : s.nextTurn = if s.busy then .codec else .host := by
  rw [State.nextTurn, h]

theorem State.spendTurn_nil (h : s.turns = []) : s.spendTurn = s := by
  cases s
  cases h
  rfl

/-- At the end of the schedule an idle block leaves the step to the host. -/
theorem step_default_idle (hb : s.busy = false) (ht : s.turns = []) : step s = hostTurn s := by
  have hn : s.nextTurn = .host := by simp [State.nextTurn_nil ht, hb]
  rw [step_host hn, State.spendTurn_nil ht]

theorem hostTurn_of_fetch_none (h : s.host.fetch = none) : hostTurn s = .next s := by
  rw [hostTurn, h]

theorem hostTurn_of_fetch {i : HostInstr} {g : HostAgent} (h : s.host.fetch = some (i, g)) :
    hostTurn s = hostExec i { s with host := g } := by
  rw [hostTurn, h]

theorem hostTurn_ne_refused (r : Refusal) : hostTurn s ≠ .refused r := by
  cases hf : s.host.fetch with
  | none => simp [hostTurn_of_fetch_none hf]
  | some p => exact hostTurn_of_fetch hf ▸ hostExec_ne_refused p.1 _ r

theorem step_refused_iff : (∃ r, step s = .refused r) ↔ s.nextTurn = .secondHost := by
  cases hn : s.nextTurn with
  | host => simp [step_host hn, hostTurn_ne_refused]
  | codec =>
    cases hb : s.busy with
    | false => simp [step_codec_idle hn hb]
    | true =>
      obtain ⟨r, hr, -⟩ := step_codec_busy hn hb
      simp [hr]
  | rst => simp [step_rst hn]
  | secondHost => simp [step_secondHost hn]

end

/-! ## Runs -/

section
variable {M : Host.Core} {s t : M.State}

theorem run_succ_of_step (h : M.step s = .next t) (k : Nat) : M.run (k + 1) s = M.run k t := by
  rw [Host.Core.run, h]

theorem run_one_of_step (h : M.step s = .next t) : M.run 1 s = .next t := run_succ_of_step h 0

theorem run_one_of_fault {f : M.Fault} (h : M.step s = .fault f) : M.run 1 s = .fault f := by
  rw [Host.Core.run, h]

theorem run_add {k : Nat} (h : M.run k s = .next t) (m : Nat) : M.run (k + m) s = M.run m t := by
  induction k generalizing s with
  | zero =>
    obtain rfl : s = t := Host.Outcome.next.inj h
    rw [Nat.zero_add]
  | succ k ih =>
    rw [Host.Core.run] at h
    rw [Nat.add_right_comm, Host.Core.run]
    cases hs : M.step s with
    | next u =>
      rw [hs] at h
      exact ih h
    | fault e =>
      rw [hs] at h
      cases h
    | refused e =>
      rw [hs] at h
      cases h

theorem run_of_fixed (h : M.step s = .next s) (k : Nat) : M.run k s = .next s := by
  induction k with
  | zero => rfl
  | succ k ih => rw [run_succ_of_step h, ih]

end

/-! ## Progress (R110) -/

/-- An operation in flight ended within n steps, or the run faulted within them. -/
def EndsWithin (n : Nat) (s : State) : Prop :=
  ∃ k, k ≤ n ∧ ((∃ t : State, Host.Core.run Sys2Proof.core k s = .next t ∧ t.busy = false) ∨
    Host.Core.run Sys2Proof.core k s = .fault .hostWriteWhileBusy)

section
variable {s t : State}

theorem endsWithin_of_step {n : Nat} (h : step s = .next t) (ht : t.busy = false) : EndsWithin (n + 1) s :=
  ⟨1, Nat.le_add_left 1 n, .inl ⟨t, run_one_of_step h, ht⟩⟩

theorem endsWithin_of_fault {n : Nat} {f : Fault} (h : step s = .fault f) : EndsWithin (n + 1) s := by
  cases f
  exact ⟨1, Nat.le_add_left 1 n, .inr (run_one_of_fault h)⟩

/-- The CODEC's turn ends the operation (R43). -/
theorem endsWithin_of_codec {n : Nat} (hn : s.nextTurn = .codec) (hb : s.busy = true) : EndsWithin (n + 1) s := by
  obtain ⟨t, ht, hidle, -⟩ := step_codec_completes hn hb
  exact endsWithin_of_step ht hidle

theorem EndsWithin.of_step {n : Nat} (h : step s = .next t) (ht : EndsWithin n t) : EndsWithin (n + 1) s := by
  obtain ⟨k, hk, hrun⟩ := ht
  have hsucc := run_succ_of_step (M := Sys2Proof.core) h k
  exact ⟨k + 1, Nat.succ_le_succ hk, hsucc.symm ▸ hrun⟩

/-- The CODEC ends the operation at its turn and RST aborts it, a host turn leaves the rest of the schedule, and past the
schedule's end the CODEC moves. -/
theorem busy_endsWithin {ts : List Turn} (hts : s.turns = ts) (hb : s.busy = true)
    (hno : ∀ a ∈ ts, a ≠ .secondHost) : EndsWithin (ts.length + 1) s := by
  induction ts generalizing s with
  | nil =>
    have hn : s.nextTurn = .codec := by simp [State.nextTurn_nil hts, hb]
    exact endsWithin_of_codec hn hb
  | cons a ts ih =>
    have hn := State.nextTurn_cons hts
    cases a with
    | codec => exact endsWithin_of_codec hn hb
    | rst => exact endsWithin_of_step (step_rst hn) rfl
    | secondHost => exact absurd rfl (hno _ List.mem_cons_self)
    | host =>
      cases hstep : step s with
      | refused r => exact absurd ((step_refused_iff.1 ⟨r, hstep⟩).symm.trans hn) nofun
      | fault f => exact endsWithin_of_fault hstep
      | next t =>
        obtain ⟨g, rfl⟩ := hostTurn_busy (s.spendTurn_busy.trans hb) ((step_host hn).symm.trans hstep)
        have hrest : s.spendTurn.turns = ts := congrArg List.tail hts
        exact .of_step hstep (ih hrest hb fun a ha => hno a (List.mem_cons_of_mem _ ha))

end

/-! ## The host's program (R60, R61) -/

theorem HostAgent.fetch_prog {h : HostAgent} {i : HostInstr} (hq : h.queue = []) (hrun : h.halted = false)
    (hi : h.prog[h.pc]? = some i) : h.fetch = some (i, { h with pc := h.pc + 1 }) := by
  simp [HostAgent.fetch, hq, hrun, hi]

theorem HostAgent.fetch_halted {h : HostAgent} (hq : h.queue = []) (hhalt : h.halted = true) : h.fetch = none := by
  simp [HostAgent.fetch, hq, hhalt]

/-- BNZ is a jump, to the place behind it if acc and the mask have no bit in common. -/
theorem hostExec_bnz (mask : Int) (target : Nat) (s : State) :
    hostExec (.bnz mask target) s = .next (s.jump (if intAnd s.host.acc mask = 0 then s.host.pc else target)) := by
  rw [hostExec]
  split <;> rfl

/-- BEQ is a jump, to the place behind it if acc is not the value. -/
theorem hostExec_beq (imm : Int) (target : Nat) (s : State) :
    hostExec (.beq imm target) s = .next (s.jump (if s.host.acc = imm then target else s.host.pc)) := by
  rw [hostExec]
  split <;> rfl

/-- WAIT's mask 0x10 picks BUSY from the STATUS word, whatever ERR is. -/
theorem intAnd_statusWord_busyMask (b : Bool) (e : BitVec 4) :
    intAnd (statusWord b e).toNat 0x10 = 0 ↔ b = false := by
  cases b <;> revert e <;> decide

/-! ## The statements -/

/-- Settles O5: it is `step_codec_run`. -/
theorem stepRunsPendingOperation : Obligations.StepRunsPendingOperation :=
  fun _ _ _ hn hb hp hd _ => step_codec_run hn hb hp hd

/-- Settles O6: the word's OP is in flight at a CODEC turn, and placing it changed neither IN nor a result. -/
theorem acceptedCommandRunsNext : Obligations.AcceptedCommandRunsNext := by
  intro s nbits w i h
  have hop := decodeTableWord_eq_some_iff.1 h
  have hn : (s.withFetchWord nbits w).nextTurn = .codec := State.nextTurn_cons (s.withFetchWord_turns nbits w)
  exact ⟨_, step_codec_run hn rfl rfl hop, rfl, ⟨rfl, fun _ => rfl⟩, rfl, ⟨rfl, rfl⟩, rfl, rfl⟩

/-- Settles O51: a read changes acc alone, a write its target, and only a CTRL write starts an operation. -/
theorem sideEffectsOfHostAccesses : Obligations.SideEffectsOfHostAccesses := by
  refine ⟨fun s t i hi h => ?reads, fun s t u i b => hostWriteIn_twice, hostReads_ignore_host_turns,
    fun s t v w h => hostWriteReg_ctrl_twice h w, fun s v hb => ⟨_, hostWriteReg_ctrl_idle v hb, rfl⟩,
    fun s t r v hr h => ?register, fun s t i b h => ?inByte, fun _ _ _ => rfl⟩
  case reads =>
    rcases hi with ⟨r, rfl⟩ | ⟨k, rfl⟩ | ⟨k, rfl⟩
    all_goals
      obtain rfl := Host.Outcome.next.inj h
      exact ⟨rfl, rfl⟩
  case register =>
    rcases hostWriteReg_cases h with ⟨hctrl, -⟩ | ⟨hlen, -, -, rfl⟩ | rfl
    · exact absurd hctrl hr
    · exact ⟨rfl, fun hne => absurd hlen hne⟩
    · exact ⟨rfl, fun _ => rfl⟩
  case inByte =>
    rcases hostWriteIn_cases h with ⟨-, -, rfl⟩ | rfl
    · exact ⟨rfl, fun a ha => Memory.read_write_other _ b ha⟩
    · exact ⟨rfl, fun _ _ => rfl⟩

/-- Settles O55: by induction on the schedule. -/
theorem startedOperationsEnd : Obligations.StartedOperationsEnd := fun _ hb hno => busy_endsWithin rfl hb hno

/-- Settles O56: such a state is a fixed point of the step. -/
theorem idleBlockKeepsItsState : Obligations.IdleBlockKeepsItsState := by
  refine ⟨fun s k hb hts hf => ?fixed, fun s => step_codec_idle⟩
  case fixed =>
    have hstep : step s = .next s := (step_default_idle hb hts).trans (hostTurn_of_fetch_none hf)
    exact run_of_fixed (M := Sys2Proof.core) hstep k

/-- Settles O57: no host turn, completion or reset is refused. -/
theorem secondHostIsRefused : Obligations.SecondHostIsRefused := fun _ => step_refused_iff

/-- Settles O58: BNZ and BEQ are jumps; BNZ's test is whether acc and the mask have a bit in common. -/
theorem hostControlFlow : Obligations.HostControlFlow := by
  refine fun s mask imm target => ⟨⟨_, _, hostExec_bnz mask target s, rfl, rfl, ?taken, ?passed⟩,
    ⟨_, hostExec_beq imm target s, rfl, rfl⟩, ⟨_, rfl, rfl, rfl, fun hq => HostAgent.fetch_halted hq rfl⟩⟩
  case taken =>
    rintro ⟨k, hacc, hmask⟩
    refine if_neg fun hzero => ?_
    have hbit := (intAnd_eq_zero_iff _ _).1 hzero k
    simp [hacc, hmask] at hbit
  case passed =>
    intro hnone
    refine if_pos ((intAnd_eq_zero_iff _ _).2 fun k => ?_)
    cases hacc : s.host.acc.testBit k with
    | false => rfl
    | true => exact hnone k hacc

/-- Settles O59: RREG STATUS, then BNZ, whose mask picks BUSY from the STATUS word. -/
theorem waitLoopsWhileBusy : Obligations.WaitLoopsWhileBusy := by
  rintro s base hq hrun rfl hread hbranch
  have hturn := hostTurn_of_fetch (HostAgent.fetch_prog hq hrun hread)
  have hturn' := hostTurn_of_fetch
    (s := { s with host := { s.host with pc := s.host.pc + 1, acc := s.statusRead.toNat } })
    (HostAgent.fetch_prog hq hrun hbranch)
  refine ⟨_, _, hturn, hturn'.trans (hostExec_bnz _ _ _), ?place, rfl⟩
  case place =>
    have hmask : intAnd s.statusRead.toNat 0x10 = 0 ↔ s.busy = false := intAnd_statusWord_busyMask _ _
    cases hb : s.busy with
    | false => exact if_pos (hmask.2 hb)
    | true => exact if_neg fun hzero => Bool.noConfusion (hb.symm.trans (hmask.1 hzero))

end Sys2Proof.Machine
end

section
/-! PROOFS. MOVOI (30_encoding.md section 5): the host's copy of OUT to IN, access by access. First what a result and its
copy are and what each access does; then the statement. -/

namespace Sys2Proof.Machine

/-! ## A result and its copy (R28, R59) -/

/-- Under the invariant every byte below OUT_LEN is listed in OUT. -/
theorem State.Inv.read_outBuf {s : State} (hs : s.Inv) {i : Nat} (hi : i < s.outLen.toNat) :
    s.outBuf.read i = some (s.outByte i) := by
  have hlisted : (s.outBuf.read i).isSome = true := (hs.out_listed i).trans (decide_eq_true hi)
  obtain ⟨b, hb⟩ := Option.isSome_iff_exists.1 hlisted
  rw [hb, State.outByte_of_read hi hb]

/-- Under the invariant a result is what OUT lists, whatever the free values are drawn at. -/
theorem State.Inv.outByte_congr {s t : State} (hs : s.Inv) (hlen : t.outLen = s.outLen) (hbuf : t.outBuf = s.outBuf)
    {i : Nat} (hi : i < s.outLen.toNat) : t.outByte i = s.outByte i :=
  State.outByte_of_read (hlen ▸ hi) (hbuf ▸ hs.read_outBuf hi)

theorem State.Inv.outBytes_congr {s t : State} (hs : s.Inv) (hlen : t.outLen = s.outLen) (hbuf : t.outBuf = s.outBuf) :
    t.outBytes = s.outBytes := by
  rw [State.outBytes, State.outBytes, hlen]
  exact List.map_congr_left fun i hi => hs.outByte_congr hlen hbuf (List.mem_range.1 hi)

/-- IN with a result copied to it, and IN_LEN its length, holds that result as the operand. -/
theorem State.operand_of_copied {s t : State} (hlen : t.inLen = s.outLen)
    (hread : ∀ i, i < s.outLen.toNat → t.inBuf.read i = some (s.outByte i)) : t.operand = s.outBytes := by
  rw [State.operand, State.memRead, State.outBytes, hlen]
  refine List.map_congr_left fun i hi => ?_
  rw [Nat.zero_add, State.inByte_of_read (hread i (List.mem_range.1 hi))]

/-! ## The accesses of MOVOI (R61) -/

theorem HostAgent.fetch_queue {h : HostAgent} {i : HostInstr} {q : List HostInstr} (hq : h.queue = i :: q) :
    h.fetch = some (i, { h with queue := q }) := by
  rw [HostAgent.fetch, hq]

/-- The accesses by which MOVOI copies the first k bytes (R61). -/
def movoiCopies (k : Nat) : List HostInstr := (List.range k).flatMap fun i => [.rout i, .winAcc i]

theorem movoiRest_eq (n : Nat) : movoiRest n = movoiCopies n ++ [.wreg regInLen (BitVec.ofNat 32 n)] := rfl

theorem movoiCopies_succ (k : Nat) : movoiCopies (k + 1) = movoiCopies k ++ [.rout k, .winAcc k] := by
  simp [movoiCopies, List.range_succ]

/-- s with its host, what IN lists and the draws replaced, which is all that MOVOI changes before its last access. -/
def State.withCopy (s : State) (g : HostAgent) (m : Memory) (d : Nat) : State :=
  { s with host := g, inBuf := m, draws := d }

/-- IN lists m and the host is g after copying the bytes of OUT below k, with q left in the host's queue. -/
structure CopiedOut (s : State) (g : HostAgent) (m : Memory) (k : Nat) (q : List HostInstr) : Prop where
  queue : g.queue = q
  pc : g.pc = s.host.pc
  copied : ∀ i, i < k → i < Config.nIn → m.read i = some (s.outByte i)
  kept : ∀ i, k ≤ i ∨ Config.nIn ≤ i → m.read i = s.inBuf.read i

section
variable {s : State} {k : Nat} {q : List HostInstr}

/-- At the end of the schedule an idle block leaves the step to the host's queue. -/
theorem step_queued {i : HostInstr} (hb : s.busy = false) (hts : s.turns = []) (hq : s.host.queue = i :: q) :
    step s = hostExec i { s with host := { s.host with queue := q } } := by
  rw [step_default_idle hb hts, hostTurn_of_fetch (HostAgent.fetch_queue hq)]

/-- A write to IN with BUSY = 0, in its range or beyond it, changes at most that byte. -/
theorem hostWriteIn_idle (i : Nat) (b : Byte) (hb : s.busy = false) :
    ∃ m d, hostWriteIn i b s = .next { s with inBuf := m, draws := d } ∧
      (i < Config.nIn → m.read i = some b) ∧ ∀ a, a ≠ i ∨ Config.nIn ≤ i → m.read a = s.inBuf.read a := by
  rcases Nat.lt_or_ge i Config.nIn with hi | hi
  · refine ⟨_, _, hostWriteIn_inRange b hb hi, fun _ => Memory.read_write_same _ i b, fun a ha => ?_⟩
    exact Memory.read_write_other _ b (ha.resolve_right (Nat.not_le_of_lt hi))
  · exact ⟨s.inBuf, s.draws, hostWriteIn_outOfRange b hb hi, fun h => absurd h (Nat.not_lt_of_le hi), fun _ _ => rfl⟩

theorem step_rout (hb : s.busy = false) (hts : s.turns = []) (hq : s.host.queue = .rout k :: q) :
    step s = .next (s.withCopy { s.host with queue := q, acc := (hostReadOut k s).toNat } s.inBuf s.draws) :=
  step_queued hb hts hq

/-- WIN k, acc writes the byte that acc holds. -/
theorem step_winAcc (hb : s.busy = false) (hts : s.turns = []) (hq : s.host.queue = .winAcc k :: q) {b : Byte}
    (hacc : s.host.acc = b.toNat) :
    ∃ m d, step s = .next (s.withCopy { s.host with queue := q } m d) ∧
      (k < Config.nIn → m.read k = some b) ∧ ∀ a, a ≠ k ∨ Config.nIn ≤ k → m.read a = s.inBuf.read a := by
  have hbyte : BitVec.ofInt 8 s.host.acc = b := by simp [hacc]
  rw [step_queued hb hts hq, hostExec, hbyte]
  exact hostWriteIn_idle k b hb

/-- ROUT k and WIN k, acc, queued with BUSY = 0, write the byte the host reads from OUT to IN. -/
theorem run_copies_byte (hb : s.busy = false) (hts : s.turns = []) (hq : s.host.queue = .rout k :: .winAcc k :: q) :
    ∃ g m d, Host.Core.run Sys2Proof.core 2 s = .next (s.withCopy g m d) ∧ g.queue = q ∧ g.pc = s.host.pc ∧
      (k < Config.nIn → m.read k = some (hostReadOut k s)) ∧
      ∀ a, a ≠ k ∨ Config.nIn ≤ k → m.read a = s.inBuf.read a := by
  have hrout := step_rout hb hts hq
  obtain ⟨m, d, hwin, hwritten⟩ := step_winAcc
    (s := s.withCopy { s.host with queue := .winAcc k :: q, acc := (hostReadOut k s).toNat } s.inBuf s.draws)
    hb hts rfl rfl
  have hrun := (run_succ_of_step (M := Sys2Proof.core) hrout 1).trans (run_one_of_step (M := Sys2Proof.core) hwin)
  exact ⟨_, m, d, hrun, rfl, rfl, hwritten⟩

/-- Two steps copy one byte more. -/
theorem CopiedOut.run_byte {g : HostAgent} {m : Memory} (d : Nat) (hs : s.Inv) (hb : s.busy = false) (hts : s.turns = [])
    (hk : k < s.outLen.toNat) (h : CopiedOut s g m k (.rout k :: .winAcc k :: q)) :
    ∃ g' m' d', Host.Core.run Sys2Proof.core 2 (s.withCopy g m d) = .next (s.withCopy g' m' d') ∧
      CopiedOut s g' m' (k + 1) q := by
  obtain ⟨g', m', d', hrun, hqueue, hpc, hsame, hother⟩ := run_copies_byte (s := s.withCopy g m d) hb hts h.queue
  have hbyte : hostReadOut k (s.withCopy g m d) = s.outByte k := by
    rw [← hs.outByte_congr (t := s.withCopy g m d) rfl rfl hk]
    exact hostReadOut_idle (hk.trans_le hs.outLen_le) hb
  refine ⟨g', m', d', hrun, hqueue, hpc.trans h.pc, fun i hi hin => ?copied, fun i hi => ?kept⟩
  case copied =>
    rcases Nat.lt_succ_iff_lt_or_eq.1 hi with hlt | rfl
    · exact (hother i (.inl hlt.ne)).trans (h.copied i hlt hin)
    · exact (hsame hin).trans (congrArg some hbyte)
  case kept =>
    have hold : k ≤ i ∨ Config.nIn ≤ i := hi.imp_left Nat.le_of_succ_le
    have hne : i ≠ k ∨ Config.nIn ≤ k := by omega
    exact (hother i hne).trans (h.kept i hold)

/-- The copying part of MOVOI, by the bytes copied so far. -/
theorem run_movoiCopies (hs : s.Inv) (hb : s.busy = false) (hts : s.turns = []) (hk : k ≤ s.outLen.toNat)
    (hq : s.host.queue = movoiCopies k ++ q) :
    ∃ g m d, Host.Core.run Sys2Proof.core (2 * k) s = .next (s.withCopy g m d) ∧ CopiedOut s g m k q := by
  induction k generalizing q with
  | zero => exact ⟨s.host, s.inBuf, s.draws, rfl, hq, rfl, nofun, fun _ _ => rfl⟩
  | succ k ih =>
    rw [movoiCopies_succ, List.append_assoc] at hq
    obtain ⟨g, m, d, hrun, hcopied⟩ := ih (Nat.le_of_succ_le hk) hq
    obtain ⟨g', m', d', hbyte, hnext⟩ := hcopied.run_byte d hs hb hts hk
    exact ⟨g', m', d', (run_add (M := Sys2Proof.core) hrun 2).trans hbyte, hnext⟩

/-- The write to IN_LEN that ends MOVOI: a length IN has room for is taken, a longer one ignored (R21). -/
theorem step_movoi_length (hb : s.busy = false) (hts : s.turns = []) {v : Word}
    (hq : s.host.queue = [.wreg regInLen v]) :
    ∃ d, step s = .next { s with host := { s.host with queue := [] }, draws := d,
                                 inLen := if v.toNat ≤ Config.nIn then v else s.inLen } := by
  rw [step_queued hb hts hq]
  split
  next hv => exact ⟨_, hostWriteReg_inLen_legal hb hv⟩
  next hv => exact ⟨_, hostWriteReg_inLen_ignored hb (Nat.lt_of_not_le hv)⟩

end

/-- MOVOI's first step reads OUT_LEN and queues the rest. -/
theorem step_movoi {s : State} {h : HostAgent} (hb : s.busy = false) (hts : s.turns = [])
    (hf : s.host.fetch = some (.movoi, h)) :
    step s = .next { s with host := { h with acc := s.outLen.toNat, queue := movoiRest s.outLen.toNat } } := by
  rw [step_default_idle hb hts, hostTurn_of_fetch hf, hostExec]
  obtain ⟨hlen, -⟩ := hostReadReg_results_idle (s := { s with host := h }) hb
  rw [hlen]
  rfl

/-! ## The statement -/

/-- Settles O60: the first step queues the copies, two steps copy a byte, and the last step writes IN_LEN. -/
theorem movoiCopiesOutToIn : Obligations.MovoiCopiesOutToIn := by
  intro s h hs hb hts _ hf
  have hfirst := step_movoi hb hts hf
  obtain ⟨g, m, d, hcopies, hcopied⟩ := run_movoiCopies
    (s := { s with host := { h with acc := s.outLen.toNat, queue := movoiRest s.outLen.toNat } })
    { hs with } hb hts le_rfl (movoiRest_eq _)
  obtain ⟨hqueue, hpc, hcopy, hkeep⟩ := hcopied
  rw [BitVec.ofNat_toNat, BitVec.setWidth_eq] at hqueue
  obtain ⟨d', hlast⟩ := step_movoi_length (s := s.withCopy g m d) hb hts hqueue
  have hrest := (run_add (M := Sys2Proof.core) hcopies 1).trans (run_one_of_step (M := Sys2Proof.core) hlast)
  refine ⟨_, (run_succ_of_step (M := Sys2Proof.core) hfirst _).trans hrest, hcopy, hkeep, fun hle => ?fits,
    fun hgt => if_neg (Nat.not_le_of_lt hgt), hs.outBytes_congr rfl rfl, ⟨rfl, fun _ => rfl⟩, rfl, ⟨rfl, rfl⟩, rfl,
    hb, rfl, hpc⟩
  case fits =>
    have hlen : (if s.outLen.toNat ≤ Config.nIn then s.outLen else s.inLen) = s.outLen := if_pos hle
    exact ⟨hlen, State.operand_of_copied hlen fun i hi => hcopy i hi (hi.trans_le hle)⟩

end Sys2Proof.Machine
end
